-- ==== Sys2Proof/Config.lean ====
section
/-! DEFINITION. The parameters of the machine (spec/00_scope.md rule R5) and the one host-interface point that the spec
leaves open as a parameter (spec/92_eei_decisions.md D33). -/

namespace Sys2Proof

/-- The open parameters of the machine (R5). The model takes them as an argument: they stand in the state (`State.params`), no
step and no host operation changes them, and every definition reads them from there. Log entries 1 and 2. -/
structure Params where
  /-- `W`, the number of bits in a Word (R5, D1). -/
  wordBits : Nat
  /-- `N`, the number of Words in memory (R5, D3). -/
  memSize : Nat
  deriving DecidableEq, Repr

/-- `2^(W-1)`: half the number of Words. -/
def Params.half (p : Params) : Nat := 2 ^ (p.wordBits - 1)

/-- The least Word, `-2^(W-1)` (R6). -/
def Params.minWord (p : Params) : Int := -(p.half : Int)

/-- The greatest Word, `2^(W-1) - 1` (R6). -/
def Params.maxWord (p : Params) : Int := (p.half : Int) - 1

/-- The ranges that R5 gives the parameters: `W >= 8` and `1 <= N <= 2^(W-1) - 1`. -/
abbrev Params.legal (p : Params) : Prop := 8 ≤ p.wordBits ∧ 1 ≤ p.memSize ∧ (p.memSize : Int) ≤ p.maxWord

/-- The reference values `W = 32` and `N = 256` (R5, D1, D3). They are only what `State.reset` starts with, and what
spec/opcode_table.json numbers its bits for. DESIGN CHOICE, unsafe where a claim is about `State.reset` itself: log entries 1
and 2. -/
def Params.reference : Params where
  wordBits := 32
  memSize := 256

/-- `READMEM_END_INCLUSIVE` (D33, U10): whether the host's `readMemory(start, end)` includes the cell `end`. A free value:
no body, so no proof can see it. Log entry 14. -/
opaque Config.readMemEndInclusive : Bool

end Sys2Proof
end

