-- ==== Sys2Proof/Word.lean ====
section
/-! DEFINITION. The Word: the machine's only value type (spec/00_scope.md rule R6, spec/10_state.md rule R20).

A Word is a signed integer of `W` bits, and `W` is a parameter. The type of every register, cell, operand and output Word is
therefore `Int`, and the range of a Word is the predicate `isWord`, which the invariant `State.Inv` states of every place that
holds one. No rule of the ISA slices a Word, and every comparison of the spec is one of signed values. Log entry 1. -/

namespace Sys2Proof

/-- `v` is a Word of `W` bits: `-2^(W-1) .. 2^(W-1) - 1` (R6). -/
abbrev isWord (p : Params) (v : Int) : Prop := p.minWord ≤ v ∧ v ≤ p.maxWord

/-- `wrap(v)`: the Word congruent to `v` modulo `2^W` (R6), with `2^W` written as twice `2^(W-1)`. -/
def wrap (p : Params) (v : Int) : Int := Int.bmod v (2 * p.half)

end Sys2Proof
end

