-- ==== Sys2Proof/Machine/State.lean ====
section
/-! DEFINITION. The state of the machine (spec/10_state.md), as plain data; the reasons a step or a host operation can stop;
the state after reset (R50). -/

namespace Sys2Proof.Machine

/-- The register file (R21, R22): 14 registers of one Word each. Read and written only through `State.reg` and
`State.setReg`. -/
structure Regs where
  r0 : Int
  r1 : Int
  r2 : Int
  r3 : Int
  r4 : Int
  r5 : Int
  r6 : Int
  r7 : Int
  xp : Int
  ip : Int
  sp : Int
  rp : Int
  exp : Int
  eip : Int
  deriving DecidableEq, Repr

/-- The eight flags (R34): independent named booleans, with no bit positions and no flags register. -/
structure Flags where
  /-- R35. -/
  halt : Bool
  /-- R36: a trap has been entered and no `resume` executed since. -/
  exception : Bool
  /-- R37. -/
  zero : Bool
  /-- R38. -/
  equal : Bool
  /-- R39. -/
  greater : Bool
  /-- R40. -/
  less : Bool
  /-- R41: set by `int`, served and cleared by phase 4 of the same step. -/
  interrupt : Bool
  /-- R42: sticky. -/
  invalidAddress : Bool
  deriving DecidableEq, Repr

/-- The memory: the cells that differ from `Memory.absent`, as (address, Word) pairs with addresses strictly rising. A cell is
a whole Word, since the architecture has no bytes (20_memory.md R66; log entry 3). -/
abbrev Memory := List (Nat × Int)

/-- What a cell that is not listed reads as: 0, the reset contents of every cell (R50). -/
def Memory.absent : Int := 0

/-- The canonical form: addresses strictly rising, and no entry equal to what an unlisted address reads as. -/
abbrev Memory.wf (m : Memory) : Prop :=
  m.Pairwise (fun c d => c.1 < d.1) ∧ ∀ c ∈ m, c.2 ≠ Memory.absent

/-- The whole state of the machine (10_state.md). -/
structure State where
  regs : Regs
  flags : Flags
  mem : Memory
  /-- The service-identifier latch `INTID` (R44). -/
  intid : Int
  /-- The output stream (R45), oldest Word first. -/
  out : List Int
  /-- The parameters `W` and `N` (00_scope.md R5). They are no state of the spec (R49): the model carries them beside the state so
  that the step takes them as an argument, and no step and no host operation changes them. Log entries 1 and 2. -/
  params : Params
  deriving DecidableEq, Repr

/-- Why a step gives no next state. -/
inductive Fault where
  /-- Raised by `step` alone, when Halt is set: "With `flag.Halt = 1` no step is taken at all" (40_core_loop.md R133). Safe:
  the machine does nothing there either. Log entry 5. -/
  | halted
  deriving DecidableEq, Repr

/-- What the model declines to give a meaning. -/
inductive Refusal where
  /-- An arm of `exec` that has no meaning yet. No arm answers it. Safe. -/
  | notModelled (mnemonic : String)
  /-- Raised by the host operation `hostLoad` when the block does not fit in memory: outside the spec (20_memory.md R77,
  93_implementation_defined.md U8). Safe. -/
  | loadDoesNotFit
  /-- Raised by the host operation `hostReadMemory` when the range does not lie in memory: left open by the spec
  (20_memory.md R78, U10). Safe. -/
  | readOutOfRange
  deriving DecidableEq, Repr

/-- The state after reset of a machine with the parameters `p` (R50): all registers and memory 0, all flags clear, `INTID` 0,
`out` empty. -/
def State.resetOf (p : Params) : State where
  regs :=
    { r0 := 0, r1 := 0, r2 := 0, r3 := 0, r4 := 0, r5 := 0, r6 := 0, r7 := 0,
      xp := 0, ip := 0, sp := 0, rp := 0, exp := 0, eip := 0 }
  flags :=
    { halt := false, exception := false, zero := false, equal := false, greater := false, less := false,
      interrupt := false, invalidAddress := false }
  mem := []
  intid := 0
  out := []
  params := p

/-- The state after reset (R50), at the reference values of the parameters (log entries 1 and 2). -/
def State.reset : State := State.resetOf Params.reference

end Sys2Proof.Machine
end

