-- ==== Sys2Proof/Machine/Flags.lean ====
section
/-! DEFINITION. The flag computation of `test` (spec/42_arith_compare.md rule R167), the only instruction that writes Zero,
Equal, Greater and Less (R168). -/

namespace Sys2Proof.Machine

/-- The flags after comparing `a` with `b` (R167): all four rewritten, signed comparison of the values, Zero from the first
operand only. No other flag changes. -/
def compareFlags (f : Flags) (a b : Int) : Flags :=
  { f with
    zero := decide (a = 0)
    equal := decide (a = b)
    greater := decide (b < a)
    less := decide (a < b) }

end Sys2Proof.Machine
end

