-- ==== Sys2Proof/Syntax.lean ====
section
/-! DEFINITION. The syntax: the 14 register names (spec/10_state.md rule R22) and the 23 instructions
(spec/30_encoding.md rule R100), one constructor per row of spec/opcode_table.json. -/

namespace Sys2Proof

/-- The 14 registers, in the order of R22 and R23. -/
inductive Reg where
  | r0 | r1 | r2 | r3 | r4 | r5 | r6 | r7
  /-- Execution pointer: the program counter (R25). -/
  | xp
  /-- Instruction pointer: address of the executing instruction (R26). -/
  | ip
  /-- Stack pointer (R27). -/
  | sp
  /-- Return-address register (R28). -/
  | rp
  /-- Trap target (R29). -/
  | exp
  /-- IP saved by the last trap entry (R30). -/
  | eip
  deriving DecidableEq, Repr

/-- The instructions (R100), operands in the order they are written and encoded. -/
inductive Instr where
  | halt
  | int (service : Int)
  | noop
  | set (rd : Reg) (v : Int)
  | load (rd : Reg) (a : Int)
  | store (rs : Reg) (a : Int)
  | move (rd rs : Reg)
  | push (rs : Reg)
  | pop (rd : Reg)
  | inc (r : Reg)
  | dec (r : Reg)
  | cstr (text : List Int)
  | test (ra rb : Reg)
  | jump (a : Int)
  | jz (a : Int)
  | jnz (a : Int)
  | je (a : Int)
  | jne (a : Int)
  | call (a : Int)
  | ret
  | settrap (a : Int)
  | raise
  | resume
  deriving DecidableEq, Repr

/-- One operand, by kind (R91): register, immediate, address or string. -/
inductive Operand where
  | reg (r : Reg)
  | imm (v : Int)
  | addr (a : Int)
  | str (text : List Int)
  deriving DecidableEq, Repr

/-- The operands of an instruction in written order: the "kinds" column of R100. -/
def Instr.operands : Instr → List Operand
  | .halt => []
  | .int v => [.imm v]
  | .noop => []
  | .set rd v => [.reg rd, .imm v]
  | .load rd a => [.reg rd, .addr a]
  | .store rs a => [.reg rs, .addr a]
  | .move rd rs => [.reg rd, .reg rs]
  | .push rs => [.reg rs]
  | .pop rd => [.reg rd]
  | .inc r => [.reg r]
  | .dec r => [.reg r]
  | .cstr text => [.str text]
  | .test ra rb => [.reg ra, .reg rb]
  | .jump a => [.addr a]
  | .jz a => [.addr a]
  | .jnz a => [.addr a]
  | .je a => [.addr a]
  | .jne a => [.addr a]
  | .call a => [.addr a]
  | .ret => []
  | .settrap a => [.addr a]
  | .raise => []
  | .resume => []

/-- How many Words an operand occupies (R91): one, but `L + 1` for a string of `L` characters (R99). -/
def Operand.words : Operand → Nat
  | .reg _ => 1
  | .imm _ => 1
  | .addr _ => 1
  | .str text => text.length + 1

/-- The length of an instruction in Words (R98): the opcode Word and its operand Words. -/
def Instr.size (i : Instr) : Nat := 1 + (i.operands.map Operand.words).sum

end Sys2Proof
end

