-- ==== Sys2Proof/WellFormed.lean ====
section
/-! DEFINITION. Which terms of the syntax an encoding can stand for. Register operands are register names; every Word, and nothing
else, is a legal immediate and a legal address operand (spec/30_encoding.md rules R92, R93, R105); a string operand is Words
other than its terminator (R99). -/

namespace Sys2Proof

/-- A character of a string operand: a Word, and not code point 0, which is the terminator (R99). -/
abbrev isCharacter (p : Params) (c : Int) : Prop := isWord p c ∧ c ≠ 0

/-- The operand can be encoded in Words of `W` bits. -/
def Operand.wellFormed (p : Params) : Operand → Bool
  | .reg _ => true
  | .imm v => decide (isWord p v)
  | .addr a => decide (isWord p a)
  | .str text => text.all fun c => decide (isCharacter p c)

/-- Every operand is one that the encoding admits. -/
def Instr.wellFormed (p : Params) (i : Instr) : Bool := i.operands.all (Operand.wellFormed p)

end Sys2Proof
end

