-- ==== Sys2Proof/Decode.lean ====
section
/-! DEFINITION. The encoding tables of spec/30_encoding.md: register indices (R94, spec/10_state.md R23), the opcode map
(R100), the decoder from a run of Words (R95 to R99) and, after it, the encoder. The numbers are the spec's decisions D4 and
D5 (log entry 4). -/

namespace Sys2Proof

/-- Register indices (10_state.md R23): the Word that stands for each register. -/
def regTable : List (Int × Reg) :=
  [(0, .r0), (1, .r1), (2, .r2), (3, .r3), (4, .r4), (5, .r5), (6, .r6), (7, .r7),
   (8, .xp), (9, .ip), (10, .sp), (11, .rp), (12, .exp), (13, .eip)]

/-- The register that a register-operand Word names (R94); `none` outside 0..13 (R104). -/
def regOfWord (w : Int) : Option Reg := regTable.lookup w

/-- The eight formats (R97), each with what its operands make. -/
inductive Shape where
  | f0 (i : Instr)
  | fr (mk : Reg → Instr)
  | fi (mk : Int → Instr)
  | fa (mk : Int → Instr)
  | fri (mk : Reg → Int → Instr)
  | fra (mk : Reg → Int → Instr)
  | frr (mk : Reg → Reg → Instr)
  | fs (mk : List Int → Instr)

/-- The opcode map, row for row the table of R100. -/
def opcodeTable : List (Int × Shape) :=
  [(0, .f0 .halt), (1, .fi .int), (2, .f0 .noop), (3, .fri .set), (4, .fra .load), (5, .fra .store),
   (6, .frr .move), (7, .fr .push), (8, .fr .pop), (9, .fr .inc), (10, .fr .dec), (11, .fs .cstr),
   (12, .frr .test), (13, .fa .jump), (14, .fa .jz), (15, .fa .jnz), (16, .fa .je), (17, .fa .jne),
   (18, .fa .call), (19, .f0 .ret), (20, .fa .settrap), (21, .f0 .raise), (22, .f0 .resume)]

/-- The row of an opcode Word: the whole Word is compared (R90, R102). -/
def shapeOf (w : Int) : Option Shape := opcodeTable.lookup w

/-- Why a run of Words is not an instruction. -/
inductive DecodeError where
  /-- The Words ran out before the instruction was complete: the next fetch would be out of bounds (R95). -/
  | outOfWords
  /-- The opcode Word is no row of the table (R103). -/
  | unknownOpcode (w : Int)
  /-- A register-operand Word is outside 0..13 (R104). -/
  | badRegister (w : Int)
  deriving DecidableEq, Repr

/-- One operand Word of kind immediate or address (R92, R93), and the Words after it. -/
def takeWord : List Int → Except DecodeError (Int × List Int)
  | [] => .error .outOfWords
  | w :: ws => .ok (w, ws)

/-- `RegOperand()` (R96): the index is checked as soon as its Word is there. -/
def takeReg : List Int → Except DecodeError (Reg × List Int)
  | [] => .error .outOfWords
  | w :: ws =>
    match regOfWord w with
    | some r => .ok (r, ws)
    | none => .error (.badRegister w)

/-- A string operand (R99): the Words up to the first 0 Word, which ends it. -/
def takeString : List Int → Except DecodeError (List Int × List Int)
  | [] => .error .outOfWords
  | c :: ws =>
    if c = 0 then .ok ([], ws)
    else
      match takeString ws with
      | .ok (text, rest) => .ok (c :: text, rest)
      | .error e => .error e

/-- The operands of a row, in written order, first operand first (R95). -/
def decodeOperands (sh : Shape) (ws : List Int) : Except DecodeError (Instr × List Int) :=
  match sh with
  | .f0 i => .ok (i, ws)
  | .fr mk => do
    let (r, ws) ← takeReg ws
    return (mk r, ws)
  | .fi mk => do
    let (v, ws) ← takeWord ws
    return (mk v, ws)
  | .fa mk => do
    let (a, ws) ← takeWord ws
    return (mk a, ws)
  | .fri mk => do
    let (r, ws) ← takeReg ws
    let (v, ws) ← takeWord ws
    return (mk r v, ws)
  | .fra mk => do
    let (r, ws) ← takeReg ws
    let (a, ws) ← takeWord ws
    return (mk r a, ws)
  | .frr mk => do
    let (r, ws) ← takeReg ws
    let (r', ws) ← takeReg ws
    return (mk r r', ws)
  | .fs mk => do
    let (text, ws) ← takeString ws
    return (mk text, ws)

/-- The decoder: the instruction at the head of a run of Words, and the Words after it. The row is found from the opcode Word
alone (40_core_loop.md R131); the operand Words are then taken one by one. -/
def decode : List Int → Except DecodeError (Instr × List Int)
  | [] => .error .outOfWords
  | w :: ws =>
    match shapeOf w with
    | some sh => decodeOperands sh ws
    | none => .error (.unknownOpcode w)

/-! The encoder, from the same tables of the spec. -/

/-- The index of a register (10_state.md R23). -/
def wordOfReg : Reg → Int
  | .r0 => 0 | .r1 => 1 | .r2 => 2 | .r3 => 3 | .r4 => 4 | .r5 => 5 | .r6 => 6 | .r7 => 7
  | .xp => 8 | .ip => 9 | .sp => 10 | .rp => 11 | .exp => 12 | .eip => 13

/-- The opcode number of an instruction (R100, first column). -/
def opcodeOf : Instr → Int
  | .halt => 0
  | .int _ => 1
  | .noop => 2
  | .set _ _ => 3
  | .load _ _ => 4
  | .store _ _ => 5
  | .move _ _ => 6
  | .push _ => 7
  | .pop _ => 8
  | .inc _ => 9
  | .dec _ => 10
  | .cstr _ => 11
  | .test _ _ => 12
  | .jump _ => 13
  | .jz _ => 14
  | .jnz _ => 15
  | .je _ => 16
  | .jne _ => 17
  | .call _ => 18
  | .ret => 19
  | .settrap _ => 20
  | .raise => 21
  | .resume => 22

/-- The Words of an operand (R92 to R94, R99): a string is its characters and then a 0 Word. -/
def encodeOperand : Operand → List Int
  | .reg r => [wordOfReg r]
  | .imm v => [v]
  | .addr a => [a]
  | .str text => text ++ [0]

/-- The Words of an instruction (R90): its opcode Word, then its operands in written order. -/
def encode (i : Instr) : List Int := opcodeOf i :: i.operands.flatMap encodeOperand

/-! The host's view of one row of the opcode table. -/

/-- The Words of an instruction whose bits are `w`, numbered as the opcode table numbers them for the reference width `W = 32`:
Word `k` is bits `32 k + 31 .. 32 k`, read as two's complement. Every bit above `nbits` is 0, with at least two such Words after
the given ones, which is enough for the longest instruction of fixed length and for the terminator of a string. -/
def tableWords (nbits w : Nat) : List Int :=
  (List.range (nbits / 32 + 3)).map fun k => wrap Params.reference ((w % 2 ^ nbits) / 2 ^ (32 * k) : Nat)

/-- The instruction the decoder reads from those Words; `none` where it refuses them. -/
def decodeTableWord (nbits w : Nat) : Option Instr :=
  match decode (tableWords nbits w) with
  | .ok (i, _) => some i
  | .error _ => none

end Sys2Proof
end

