-- ==== Sys2Proof/Machine/Ops.lean ====
section
/-! DEFINITION. The named operations over registers, flags and memory: the primitives of spec/00_scope.md rule R8, trap entry
and the return from it. -/

namespace Sys2Proof.Machine

/-! ### Registers (10_state.md R21, R31) -/

/-- The register numbered `r` of the file. No register is hard-wired (R24). -/
def Regs.get (rf : Regs) : Reg → Int
  | .r0 => rf.r0 | .r1 => rf.r1 | .r2 => rf.r2 | .r3 => rf.r3
  | .r4 => rf.r4 | .r5 => rf.r5 | .r6 => rf.r6 | .r7 => rf.r7
  | .xp => rf.xp | .ip => rf.ip | .sp => rf.sp | .rp => rf.rp | .exp => rf.exp | .eip => rf.eip

/-- The file with one register written. Every register is fully writable (R31). -/
def Regs.set (rf : Regs) (r : Reg) (v : Int) : Regs :=
  match r with
  | .r0 => { rf with r0 := v }
  | .r1 => { rf with r1 := v }
  | .r2 => { rf with r2 := v }
  | .r3 => { rf with r3 := v }
  | .r4 => { rf with r4 := v }
  | .r5 => { rf with r5 := v }
  | .r6 => { rf with r6 := v }
  | .r7 => { rf with r7 := v }
  | .xp => { rf with xp := v }
  | .ip => { rf with ip := v }
  | .sp => { rf with sp := v }
  | .rp => { rf with rp := v }
  | .exp => { rf with exp := v }
  | .eip => { rf with eip := v }

/-- `x[r]` (00_scope.md R7). -/
def State.reg (s : State) (r : Reg) : Int := s.regs.get r

/-- `x[r] <- v` (00_scope.md R7). -/
def State.setReg (s : State) (r : Reg) (v : Int) : State := { s with regs := s.regs.set r v }

/-! ### Flags (10_state.md R34) -/

/-- The state with its flags replaced. -/
def State.setFlags (s : State) (f : Flags) : State := { s with flags := f }

/-- `flag.Halt <- b` (R35). -/
def State.setHalt (s : State) (b : Bool) : State := s.setFlags { s.flags with halt := b }

/-- `flag.Exception <- b` (R36). -/
def State.setException (s : State) (b : Bool) : State := s.setFlags { s.flags with exception := b }

/-- `flag.Interrupt <- b` (R41). -/
def State.setInterrupt (s : State) (b : Bool) : State := s.setFlags { s.flags with interrupt := b }

/-- `flag.InvalidAddress <- b` (R42). -/
def State.setInvalidAddress (s : State) (b : Bool) : State := s.setFlags { s.flags with invalidAddress := b }

/-! ### The latch and the output stream (10_state.md R44, R45) -/

/-- `INTID <- v` (R44). -/
def State.setIntid (s : State) (v : Int) : State := { s with intid := v }

/-- `Emit(c)`: `out <- out ++ [c]` (60_exceptions.md R220). -/
def State.emit (s : State) (c : Int) : State := { s with out := s.out ++ [c] }

/-! ### Memory (20_memory.md) -/

/-- The cell at an address of the array. -/
def Memory.read : Memory → Nat → Int
  | [], _ => Memory.absent
  | (k, v) :: m, a => if k = a then v else Memory.read m a

/-- The memory with one cell written, kept in canonical form: writing what an unlisted address reads as removes the entry. -/
def Memory.write : Memory → Nat → Int → Memory
  | [], a, v => if v = Memory.absent then [] else [(a, v)]
  | (k, w) :: m, a, v =>
    if a < k then (if v = Memory.absent then (k, w) :: m else (a, v) :: (k, w) :: m)
    else if a = k then (if v = Memory.absent then m else (a, v) :: m)
    else (k, w) :: Memory.write m a v

/-- The state with its memory replaced. -/
def State.setMem (s : State) (m : Memory) : State := { s with mem := m }

/-- `Mem[k]` (00_scope.md R7), for an array index `k`. -/
def State.cell (s : State) (k : Nat) : Int := s.mem.read k

/-- `Mem[k] <- v`, for an array index `k`. -/
def State.setCell (s : State) (k : Nat) (v : Int) : State := s.setMem (s.mem.write k v)

/-- `valid(a)` (R61): `0 <= a < N`, a signed comparison of Words. -/
abbrev State.valid (s : State) (a : Int) : Prop := 0 ≤ a ∧ a < s.params.memSize

/-- The two kinds of fault (60_exceptions.md R200). They are names, stored nowhere (R203). -/
inductive TrapCause where
  | invalidAddress
  | unknownOpcode
  deriving DecidableEq, Repr

/-- `MemRead(a, 1)` (R63): the cell, or the fault that the caller raises. -/
def State.memRead (s : State) (a : Int) : Except TrapCause Int :=
  if s.valid a then .ok (s.cell a.toNat) else .error .invalidAddress

/-- `MemWrite(a, 1, v)` (R64): the state with the one cell written, or the fault that the caller raises. -/
def State.memWrite (s : State) (a v : Int) : Except TrapCause State :=
  if s.valid a then .ok (s.setCell a.toNat v) else .error .invalidAddress

/-- `Fetch()` (R65): the Word at `x[XP]`, and the state with XP advanced by one; or the fault, with XP not advanced. -/
def State.fetch (s : State) : Except TrapCause (Int × State) :=
  match s.memRead (s.reg .xp) with
  | .ok v => .ok (v, s.setReg .xp (wrap s.params (s.reg .xp + 1)))
  | .error c => .error c

/-! ### Traps (60_exceptions.md) -/

/-- `TrapEntry()` (R204): `x[EIP] <- x[IP]; x[XP] <- x[EXP]; flag.Exception <- 1`. Nothing else is saved or changed (R206). -/
def State.trapEntry (s : State) : State :=
  let s := s.setReg .eip (s.reg .ip)
  let s := s.setReg .xp (s.reg .exp)
  s.setException true

/-- `raise Fault(k)` (R201, R202, R204), from the state the instruction had reached: an address fault first sets
InvalidAddress; an unknown opcode sets no flag of its own. The caller takes this as its result, so that the rest of the
instruction or service is abandoned (40_core_loop.md R132). -/
def State.raiseFault (s : State) : TrapCause → State
  | .invalidAddress => (s.setInvalidAddress true).trapEntry
  | .unknownOpcode => s.trapEntry

/-- Return from a trap (R208): `x[XP] <- x[EIP]; flag.Exception <- 0`. Nothing else was saved and nothing else is restored. -/
def State.trapReturn (s : State) : State :=
  (s.setReg .xp (s.reg .eip)).setException false

/-! ### Placing Words in memory -/

/-- `ws` written to the cells from index `k` up; Words beyond the end of memory are dropped. -/
def State.placeWords : List Int → Nat → State → State
  | [], _, s => s
  | w :: ws, k, s => State.placeWords ws (k + 1) (if k < s.params.memSize then s.setCell k w else s)

/-- The state in which `ws` stands at `x[XP]` and nothing keeps the next step from fetching it (Halt clear). -/
def State.placeAtXp (s : State) (ws : List Int) : State :=
  State.placeWords ws (s.reg .xp).toNat (s.setHalt false)

end Sys2Proof.Machine
end

