-- ==== Sys2Proof/Machine/ArithCompare.lean ====
section
/-! DEFINITION. inc, dec, test (spec/42_arith_compare.md). -/

namespace Sys2Proof.Machine

/-- `inc r` (R165): `x[r] <- wrap(x[r] + 1)`; no flag (R168). -/
def execInc (r : Reg) (s : State) : Host.Outcome State Fault Refusal :=
  .next (s.setReg r (wrap s.params (s.reg r + 1)))

/-- `dec r` (R166): `x[r] <- wrap(x[r] - 1)`; no flag (R168). -/
def execDec (r : Reg) (s : State) : Host.Outcome State Fault Refusal :=
  .next (s.setReg r (wrap s.params (s.reg r - 1)))

/-- `test ra, rb` (R167). -/
def execTest (ra rb : Reg) (s : State) : Host.Outcome State Fault Refusal :=
  .next (s.setFlags (compareFlags s.flags (s.reg ra) (s.reg rb)))

end Sys2Proof.Machine
end

