-- ==== Sys2Proof/Machine/ControlTransfer.lean ====
section
/-! DEFINITION. jump, jz, jnz, je, jne, call, ret (spec/43_control_transfer.md). A control transfer writes XP; the target is not
checked (R183). On entry `x[XP]` is the address after the instruction, where an untaken jump falls through (R180). -/

namespace Sys2Proof.Machine

/-- `if taken: x[XP] <- t`. -/
def State.jumpIf (s : State) (taken : Bool) (t : Int) : State := if taken then s.setReg .xp t else s

/-- `jump a` (R175). -/
def execJump (a : Int) (s : State) : Host.Outcome State Fault Refusal := .next (s.jumpIf true a)

/-- `jz a` (R176): taken if Zero is set. -/
def execJz (a : Int) (s : State) : Host.Outcome State Fault Refusal := .next (s.jumpIf s.flags.zero a)

/-- `jnz a` (R177): taken if Zero is clear. -/
def execJnz (a : Int) (s : State) : Host.Outcome State Fault Refusal := .next (s.jumpIf (!s.flags.zero) a)

/-- `je a` (R178): taken if Equal is set. -/
def execJe (a : Int) (s : State) : Host.Outcome State Fault Refusal := .next (s.jumpIf s.flags.equal a)

/-- `jne a` (R179): taken if Equal is clear. -/
def execJne (a : Int) (s : State) : Host.Outcome State Fault Refusal := .next (s.jumpIf (!s.flags.equal) a)

/-- `call a` (R181): `x[RP] <- x[XP]; x[XP] <- a`. -/
def execCall (a : Int) (s : State) : Host.Outcome State Fault Refusal :=
  .next ((s.setReg .rp (s.reg .xp)).setReg .xp a)

/-- `ret` (R182): `x[XP] <- x[RP]`. -/
def execRet (s : State) : Host.Outcome State Fault Refusal := .next (s.setReg .xp (s.reg .rp))

end Sys2Proof.Machine
end

