-- ==== Sys2Proof/Machine/CoreLoop.lean ====
section
/-! DEFINITION. halt, noop, cstr (spec/40_core_loop.md rules R135 to R137). A meaning is what runs in phase 3 of the step after
all the instruction's Words were fetched: on entry `x[IP]` is the address `A` of its opcode Word and `x[XP]` is `A + n` for an
instruction of `n` Words (spec/41_data_movement.md rule R157; log entry 7). -/

namespace Sys2Proof.Machine

/-- `halt` (R135): `flag.Halt <- 1`. -/
def execHalt (s : State) : Host.Outcome State Fault Refusal := .next (s.setHalt true)

/-- `noop` (R136): nothing. -/
def execNoop (s : State) : Host.Outcome State Fault Refusal := .next s

/-- `cstr` (R137): the fetches have stepped over the string; nothing else happens. -/
def execCstr (_text : List Int) (s : State) : Host.Outcome State Fault Refusal := .next s

end Sys2Proof.Machine
end

