-- ==== Sys2Proof/Machine/DataMovement.lean ====
section
/-! DEFINITION. set, load, store, move, push, pop (spec/41_data_movement.md). On entry all Words are fetched: `x[XP]` is the
address after the instruction (R157). None writes a flag of its own. -/

namespace Sys2Proof.Machine

/-- `set rd, v` (R150): `x[rd] <- v`. -/
def execSet (rd : Reg) (v : Int) (s : State) : Host.Outcome State Fault Refusal := .next (s.setReg rd v)

/-- `load rd, a` (R151): `x[rd] <- Mem[a]`; a faulting read delivers nothing (R156). -/
def execLoad (rd : Reg) (a : Int) (s : State) : Host.Outcome State Fault Refusal :=
  match s.memRead a with
  | .ok v => .next (s.setReg rd v)
  | .error c => .next (s.raiseFault c)

/-- `store rs, a` (R152): `Mem[a] <- x[rs]`. -/
def execStore (rs : Reg) (a : Int) (s : State) : Host.Outcome State Fault Refusal :=
  match s.memWrite a (s.reg rs) with
  | .ok s' => .next s'
  | .error c => .next (s.raiseFault c)

/-- `move rd, rs` (R153): `x[rd] <- x[rs]`. -/
def execMove (rd rs : Reg) (s : State) : Host.Outcome State Fault Refusal := .next (s.setReg rd (s.reg rs))

/-- `push rs` (R154): store at `x[SP]`, then lower SP. -/
def execPush (rs : Reg) (s : State) : Host.Outcome State Fault Refusal :=
  match s.memWrite (s.reg .sp) (s.reg rs) with
  | .ok s' => .next (s'.setReg .sp (wrap s.params (s'.reg .sp - 1)))
  | .error c => .next (s.raiseFault c)

/-- `pop rd` (R155): raise SP, then load from it; SP stays raised when the read faults. -/
def execPop (rd : Reg) (s : State) : Host.Outcome State Fault Refusal :=
  let s := s.setReg .sp (wrap s.params (s.reg .sp + 1))
  match s.memRead (s.reg .sp) with
  | .ok v => .next (s.setReg rd v)
  | .error c => .next (s.raiseFault c)

end Sys2Proof.Machine
end

