-- ==== Sys2Proof/Machine/TrapInterrupt.lean ====
section
/-! DEFINITION. settrap, raise, resume, int (spec/44_trap_interrupt_instr.md). -/

namespace Sys2Proof.Machine

/-- `settrap a` (R190): `x[EXP] <- a`, not checked. -/
def execSettrap (a : Int) (s : State) : Host.Outcome State Fault Refusal := .next (s.setReg .exp a)

/-- `raise` (R191): trap entry, and no fault flag. -/
def execRaise (s : State) : Host.Outcome State Fault Refusal := .next s.trapEntry

/-- `resume` (R192): return from the trap. -/
def execResume (s : State) : Host.Outcome State Fault Refusal := .next s.trapReturn

/-- `int i` (R193), its phase 3: `INTID <- i; flag.Interrupt <- 1`. The service runs in phase 4 of the same step. -/
def execInt (service : Int) (s : State) : Host.Outcome State Fault Refusal :=
  .next ((s.setIntid service).setInterrupt true)

end Sys2Proof.Machine
end

