-- ==== Sys2Proof/Machine/Dispatch.lean ====
section
/-! DEFINITION. One arm per instruction (spec/40_core_loop.md rule R131): the meaning of each, from the state in which all its
Words have been fetched. -/

namespace Sys2Proof.Machine

def exec (i : Instr) (s : State) : Host.Outcome State Fault Refusal :=
  match i with
  | .halt => Sys2Proof.Machine.execHalt s
  | .int service => Sys2Proof.Machine.execInt service s
  | .noop => Sys2Proof.Machine.execNoop s
  | .set rd v => Sys2Proof.Machine.execSet rd v s
  | .load rd a => Sys2Proof.Machine.execLoad rd a s
  | .store rs a => Sys2Proof.Machine.execStore rs a s
  | .move rd rs => Sys2Proof.Machine.execMove rd rs s
  | .push rs => Sys2Proof.Machine.execPush rs s
  | .pop rd => Sys2Proof.Machine.execPop rd s
  | .inc r => Sys2Proof.Machine.execInc r s
  | .dec r => Sys2Proof.Machine.execDec r s
  | .cstr text => Sys2Proof.Machine.execCstr text s
  | .test ra rb => Sys2Proof.Machine.execTest ra rb s
  | .jump a => Sys2Proof.Machine.execJump a s
  | .jz a => Sys2Proof.Machine.execJz a s
  | .jnz a => Sys2Proof.Machine.execJnz a s
  | .je a => Sys2Proof.Machine.execJe a s
  | .jne a => Sys2Proof.Machine.execJne a s
  | .call a => Sys2Proof.Machine.execCall a s
  | .ret => Sys2Proof.Machine.execRet s
  | .settrap a => Sys2Proof.Machine.execSettrap a s
  | .raise => Sys2Proof.Machine.execRaise s
  | .resume => Sys2Proof.Machine.execResume s

end Sys2Proof.Machine
end

