-- ==== Sys2Proof/Machine/Operands.lean ====
section
/-! DEFINITION. Fetching and decoding one instruction with all its operand Words (spec/30_encoding.md rules R95 to R99): phases
1 and 2 of the step (spec/40_core_loop.md rule R130) and the operand fetches that open phase 3. -/

namespace Sys2Proof.Machine

/-- The Words that successive `Fetch()`es yield from here, until one faults or `n` have been made. -/
def State.codeWords : Nat → State → List Int
  | 0, _ => []
  | n + 1, s =>
    match s.fetch with
    | .ok (w, s') => w :: State.codeWords n s'
    | .error _ => []

/-- The fault that a failed decoding stands for: Words that run out are a `Fetch()` out of bounds (R95); an unknown opcode and
a bad register index both raise UnknownOpcode (R103, R104). -/
def causeOf : DecodeError → TrapCause
  | .outOfWords => .invalidAddress
  | .unknownOpcode _ => .unknownOpcode
  | .badRegister _ => .unknownOpcode

/-- Phase 1 (R130): `x[IP] <- x[XP]`. -/
def State.snapshot (s : State) : State := s.setReg .ip (s.reg .xp)

/-- XP moved past `n` fetched Words (10_state.md R33). -/
def State.advance (s : State) (n : Nat) : State := s.setReg .xp (wrap s.params (s.reg .xp + n))

/-- Phase 2 and the operand fetches of phase 3: the instruction at `x[XP]`, and the state with XP past all its Words; or the
first fault on the way (60_exceptions.md R212). `memSize` fetches reach the end of memory from any address. The XP that a
faulting fetch had reached is overwritten by trap entry, so it is not kept (40_core_loop.md R132). -/
def State.fetchInstr (s : State) : Except TrapCause (Instr × State) :=
  match decode (State.codeWords s.params.memSize s) with
  | .ok (i, _) => .ok (i, s.advance i.size)
  | .error e => .error (causeOf e)

end Sys2Proof.Machine
end

