-- ==== Sys2Proof/Machine/Services.lean ====
section
/-! DEFINITION. The software interrupt's services (spec/60_exceptions.md rules R213 to R221) and phase 4 of the step
(spec/40_core_loop.md rule R130). The service numbers and the parameter register are the spec's decisions D19 and D20 (log
entry 4). -/

namespace Sys2Proof.Machine

/-- The services (R215). -/
inductive Service where
  | printInteger
  | printCharacter
  | printString
  deriving DecidableEq, Repr

/-- The service table (R215); any other identifier is no service. -/
def serviceOf (id : Int) : Option Service :=
  if id = 0 then some .printInteger
  else if id = 1 then some .printCharacter
  else if id = 2 then some .printString
  else none

/-- `PREG`, the register that carries the parameter (R216). -/
def parameterReg : Reg := .r0

/-- The character code of a decimal digit (R217): 48 for `0`. -/
def digitWord (d : Nat) : Int := (48 + d : Nat)

/-- The decimal digits of `m`, most significant first, at most `k` of them (R217). -/
def decimalDigits : Nat → Nat → List Int
  | 0, _ => []
  | k + 1, m => if m < 10 then [digitWord m] else decimalDigits k (m / 10) ++ [digitWord (m % 10)]

/-- What print-integer emits for `v` (R217): `-` (45) for a negative value, then the digits of the magnitude, a mathematical
integer, so that the most negative Word prints correctly. A magnitude of `W` bits has at most `W` digits. -/
def integerText (p : Params) (v : Int) : List Int :=
  (if v < 0 then [45] else []) ++ decimalDigits p.wordBits v.natAbs

/-- One `Emit` for each Word, in order (R220). -/
def State.emitAll (s : State) (ws : List Int) : State := ws.foldl State.emit s

/-- print-string (R219) from the address `a`: emit the Words up to the first 0; a read out of bounds faults, and what was
emitted stays. The count bounds the recursion only: `memSize + 1` reads reach a 0 or the end of memory from any address, so
its end is never met (Laws: `printString_fuel`). -/
def State.printString : Nat → Int → State → State
  | 0, _, s => s.raiseFault .invalidAddress
  | n + 1, a, s =>
    match s.memRead a with
    | .error c => s.raiseFault c
    | .ok c => if c = 0 then s else State.printString n (wrap s.params (a + 1)) (s.emit c)

/-- `Service(id, p)` (R215): an unknown identifier does nothing. -/
def State.serve (s : State) (id p : Int) : State :=
  match serviceOf id with
  | some .printInteger => s.emitAll (integerText s.params p)
  | some .printCharacter => s.emit p
  | some .printString => State.printString (s.params.memSize + 1) p s
  | none => s

/-- Phase 4 (40_core_loop.md R130): if Interrupt is set, serve `INTID` with the parameter, then clear Interrupt, whether the
service completed or faulted (R221). -/
def State.interruptPhase (s : State) : State :=
  if s.flags.interrupt then (s.serve s.intid (s.reg parameterReg)).setInterrupt false else s

/-- What the step adds after an instruction's meaning: phase 4. -/
def finishStep : Host.Outcome State Fault Refusal → Host.Outcome State Fault Refusal
  | .next s => .next s.interruptPhase
  | .fault f => .fault f
  | .refused r => .refused r

end Sys2Proof.Machine
end

