-- ==== Sys2Proof/Machine/Step.lean ====
section
/-! DEFINITION. One step of the core (spec/40_core_loop.md rule R130), and the placing of an instruction where the next step
fetches it. -/

namespace Sys2Proof.Machine

/-- One step (R130): snapshot, fetch with all operand Words, execute, interrupt phase. A fault in the fetches enters the trap
and goes on to phase 4. With Halt set no step is taken (R133). -/
def step (s : State) : Host.Outcome State Fault Refusal :=
  if s.flags.halt then .fault .halted
  else
    match s.snapshot.fetchInstr with
    | .ok (i, s') => finishStep (exec i s')
    | .error c => finishStep (.next (s.snapshot.raiseFault c))

/-- `s` with the instruction of `nbits` and `w` (see `tableWords`), in Words of the machine's width, stored at `x[XP]` and Halt
clear, so that the very next step fetches and runs it. It stands for the host's `load` (20_memory.md R77): log entry 6. -/
def State.withFetchWord (s : State) (nbits w : Nat) : State := s.placeAtXp ((tableWords nbits w).map (wrap s.params))

end Sys2Proof.Machine
end

