-- ==== Sys2Proof/Machine/HostOps.lean ====
section
/-! DEFINITION. The host's operations between runs (spec/70_reset_and_hazards.md rule R255, spec/20_memory.md rules R77, R78)
and the loop they start. There is no host move during a run (R74). -/

namespace Sys2Proof.Machine

/-- Reset (R250): every piece of state to its reset value; the parameters stay. -/
def State.hostReset (s : State) : State := State.resetOf s.params

/-- `load(words, address)` (R77): `Mem[address + k] <- words[k]`, no register and no flag. Defined only when the whole block
fits; otherwise refused (U8). -/
def State.hostLoad (s : State) (ws : List Int) (a : Int) : Host.Outcome State Fault Refusal :=
  if 0 ≤ a ∧ a + ws.length ≤ s.params.memSize then .next (State.placeWords ws a.toNat s)
  else .refused .loadDoesNotFit

/-- The writes that open `run()` (R252): Halt, XP, IP and RP to 0, SP to `N - 1`. -/
def State.runStart (s : State) : State :=
  ((((s.setHalt false).setReg .xp 0).setReg .ip 0).setReg .sp (wrap s.params ((s.params.memSize : Int) - 1))).setReg .rp 0

/-- The loop "while Halt is clear" (R133, R254), cut off after `n` steps: the state in which the run ended, or `none` while it
is still running. `n` is no part of the architecture (U12); see `Safety.lean` for a run that ends and one that diverges. -/
def State.continueFor : Nat → State → Option State
  | n, s =>
    if s.flags.halt then some s
    else
      match n with
      | 0 => none
      | n + 1 =>
        match step s with
        | .next s' => State.continueFor n s'
        | .fault _ => none
        | .refused _ => none

/-- `run()` (R252), cut off after `n` steps. -/
def State.runFor (n : Nat) (s : State) : Option State := State.continueFor n s.runStart

/-- The address after the last cell that `readMemory(start, end)` copies: `end + 1` or `end`, as the free parameter
`Config.readMemEndInclusive` says (R78, D33). -/
def readMemoryEnd (stop : Int) : Int := if Config.readMemEndInclusive then stop + 1 else stop

/-- `readMemory(start, end)` (R78): a copy of a range of cells. The spec leaves open whether the cell `end` belongs to it (D33) and
asks to refuse out-of-range arguments (U10). DESIGN CHOICE, log entry 14: an argument is out of range, and the read is refused,
when `start < 0`, when `end < start`, or when the last cell to copy lies beyond memory; so with an inclusive end every copy has
at least one cell, and with an exclusive end `start = end` copies none, up to `start = end = N`. -/
def State.hostReadMemory (s : State) (start stop : Int) : Except Refusal (List Int) :=
  if 0 ≤ start ∧ start ≤ stop ∧ readMemoryEnd stop ≤ s.params.memSize then
    .ok ((List.range (readMemoryEnd stop - start).toNat).map fun k => s.cell (start.toNat + k))
  else .error .readOutOfRange

/-- The register read accessor (R78). -/
def State.hostReadReg (s : State) (r : Reg) : Int := s.reg r

/-- The flag read accessor (R78): the eight flags. -/
def State.hostReadFlags (s : State) : Flags := s.flags

end Sys2Proof.Machine
end

