-- ==== Sys2Proof/Safety.lean ====
section
/-! DEFINITION. The terms in which statements speak of states, steps and runs: the invariant of the machine, frames, a trap
taken, an instruction standing in memory, a run that ends and one that diverges. -/

namespace Sys2Proof.Machine

/-! ### The invariant of the machine -/

/-- Every register, every cell, `INTID` and every place of `out` hold a Word of `W` bits (10_state.md R20, R44, R45). A cell that
is not listed holds 0. -/
abbrev State.wordsOk (s : State) : Prop :=
  (∀ r, isWord s.params (s.reg r)) ∧ (∀ c ∈ s.mem, isWord s.params c.2) ∧ isWord s.params s.intid ∧
  ∀ c ∈ s.out, isWord s.params c

/-- The memory is in canonical form and lists only cells of the array (20_memory.md R60). -/
abbrev State.memOk (s : State) : Prop := s.mem.wf ∧ ∀ c ∈ s.mem, c.1 < s.params.memSize

/-- "at most one of {Equal, Greater, Less} is true at once" (10_state.md R43). -/
abbrev Flags.compareOk (f : Flags) : Prop :=
  ¬(f.equal = true ∧ f.greater = true) ∧ ¬(f.equal = true ∧ f.less = true) ∧ ¬(f.greater = true ∧ f.less = true)

/-- What holds at every step boundary: legal parameters (00_scope.md R5), a Word in every place that holds one, a
canonical memory inside the array, no request pending (R41), and the comparison flags exclusive (R43). -/
abbrev State.Inv (s : State) : Prop :=
  s.params.legal ∧ s.memOk ∧ s.wordsOk ∧ s.flags.interrupt = false ∧ s.flags.compareOk

/-! ### Frames -/

/-- Every register but those listed reads in `t` as in `s`. -/
abbrev SameRegsExcept (rs : List Reg) (s t : State) : Prop := ∀ r, r ∉ rs → t.reg r = s.reg r

/-- Every cell reads in `t` as in `s`. -/
abbrev SameMemory (s t : State) : Prop := ∀ k, t.cell k = s.cell k

/-- Every cell but `k` reads in `t` as in `s`. -/
abbrev SameMemoryExcept (k : Nat) (s t : State) : Prop := ∀ j, j ≠ k → t.cell j = s.cell j

/-- `INTID`, `out` and the parameters are in `t` as in `s`. -/
abbrev SameRest (s t : State) : Prop := t.intid = s.intid ∧ t.out = s.out ∧ t.params = s.params

/-- `t` is `s` after an UnknownOpcode fault or a `raise` (60_exceptions.md R202, R204): EIP from IP, XP from EXP, Exception
set, and nothing else changed. -/
abbrev PlainTrap (s t : State) : Prop :=
  t.reg .eip = s.reg .ip ∧ t.reg .xp = s.reg .exp ∧ t.flags = { s.flags with exception := true } ∧
  SameRegsExcept [.eip, .xp] s t ∧ SameMemory s t ∧ SameRest s t

/-- `t` is `s` after an InvalidAddress fault (R201, R204): as `PlainTrap`, and InvalidAddress is set too. -/
abbrev AddressTrap (s t : State) : Prop :=
  t.reg .eip = s.reg .ip ∧ t.reg .xp = s.reg .exp ∧
  t.flags = { s.flags with exception := true, invalidAddress := true } ∧
  SameRegsExcept [.eip, .xp] s t ∧ SameMemory s t ∧ SameRest s t

/-- `t` is `s` with XP moved to `x` and IP at the address of the instruction just executed; nothing else changed. -/
abbrev Moved (x : Int) (s t : State) : Prop :=
  t.reg .xp = x ∧ t.reg .ip = s.reg .xp ∧ SameRegsExcept [.xp, .ip] s t ∧ t.flags = s.flags ∧ SameMemory s t ∧
  SameRest s t

/-- The registers an instruction may write beyond the snapshot of IP and the advance of XP that every step makes: its
destination operand, the registers of 10_state.md R32, and EIP and XP where it can enter the trap (R204). -/
def mayWrite : Instr → List Reg
  | .halt => []
  | .int _ => [.eip, .xp]
  | .noop => []
  | .set rd _ => [rd]
  | .load rd _ => [rd, .eip, .xp]
  | .store _ _ => [.eip, .xp]
  | .move rd _ => [rd]
  | .push _ => [.sp, .eip, .xp]
  | .pop rd => [rd, .sp, .eip, .xp]
  | .inc r => [r]
  | .dec r => [r]
  | .cstr _ => []
  | .test _ _ => []
  | .jump _ => [.xp]
  | .jz _ => [.xp]
  | .jnz _ => [.xp]
  | .je _ => [.xp]
  | .jne _ => [.xp]
  | .call _ => [.rp, .xp]
  | .ret => [.xp]
  | .settrap _ => [.exp]
  | .raise => [.eip, .xp]
  | .resume => [.xp]

/-- The cell an instruction may store to, if any, as an array index (20_memory.md R62): the address operand of `store`, the
stack cell of `push`. -/
def mayStore (s : State) : Instr → Option Nat
  | .store _ a => some a.toNat
  | .push _ => some (s.reg .sp).toNat
  | .halt => none
  | .int _ => none
  | .noop => none
  | .set _ _ => none
  | .load _ _ => none
  | .move _ _ => none
  | .pop _ => none
  | .inc _ => none
  | .dec _ => none
  | .cstr _ => none
  | .test _ _ => none
  | .jump _ => none
  | .jz _ => none
  | .jnz _ => none
  | .je _ => none
  | .jne _ => none
  | .call _ => none
  | .ret => none
  | .settrap _ => none
  | .raise => none
  | .resume => none

/-- Two states that differ at most in the flags no program can observe (10_state.md R34): Exception, Greater, Less and
InvalidAddress. -/
abbrev SameButHiddenFlags (s t : State) : Prop :=
  t.regs = s.regs ∧ t.mem = s.mem ∧ t.intid = s.intid ∧ t.out = s.out ∧ t.params = s.params ∧
  t.flags.halt = s.flags.halt ∧ t.flags.zero = s.flags.zero ∧ t.flags.equal = s.flags.equal ∧
  t.flags.interrupt = s.flags.interrupt

/-! ### Instructions in memory -/

/-- The Words `ws` stand at address `a` and the cells after it (30_encoding.md R90), all inside the array. -/
abbrev State.hasWords (s : State) (a : Int) (ws : List Int) : Prop :=
  0 ≤ a ∧ a + ws.length ≤ s.params.memSize ∧ ∀ k, k < ws.length → ws[k]? = some (s.cell (a.toNat + k))

/-- The core is about to take a step (R130) and the Words `ws` stand at `x[XP]`. -/
abbrev State.atWords (s : State) (ws : List Int) : Prop :=
  s.flags.halt = false ∧ s.Inv ∧ s.hasWords (s.reg .xp) ws

/-- As `atWords`, and memory ends right after those Words: the fetch of the next Word is out of bounds. -/
abbrev State.atLastWords (s : State) (ws : List Int) : Prop :=
  s.atWords ws ∧ s.reg .xp + ws.length = s.params.memSize

/-- The instruction that the next step executes, if its fetches succeed. -/
abbrev State.running (s : State) (i : Instr) : Prop := ∃ s', s.snapshot.fetchInstr = .ok (i, s')

/-- What a register operand reads as inside an instruction of `n` Words at `x[XP]` (41_data_movement.md R157): `A + n` for `xp`,
`A` for `ip`, and the register's value for any other. -/
def operandValue (s : State) (n : Nat) (r : Reg) : Int :=
  if r = .xp then wrap s.params (s.reg .xp + n) else if r = .ip then s.reg .xp else s.reg r

/-- A register-operand Word that is no register's index (30_encoding.md R104). -/
abbrev NoRegister (w : Int) : Prop := w < 0 ∨ 13 < w

/-! ### Runs (00_scope.md R11) -/

/-- The run from `s` ends in `t`. -/
abbrev RunEnds (s t : State) : Prop := ∃ n, State.continueFor n s = some t

/-- The run from `s` never ends. -/
abbrev Diverges (s : State) : Prop := ∀ n, State.continueFor n s = none

end Sys2Proof.Machine
end

