-- ==== Sys2Proof/Certificates/Slice0/Obligations.lean ====
section
/-! DEFINITION. The statements for the provers. A docstring names the rule of spec/ a statement formalises; where it rests on
a decision the spec marks as its own (92_eei_decisions.md) or on a choice of the model, it says so and names the log entry. -/

open Sys2Proof Sys2Proof.Machine

/-! ## Encoding (spec/30_encoding.md) -/

/-- At every legal width, the encoding of a well-formed instruction consists of Words, and decoding it gives the instruction back,
whatever Words follow. Rests on the numbering of D4 and D5 (log entry 4). -/
def Obligations.DecodeEncodeRoundTrip : Prop :=
  ∀ (p : Params) (i : Instr), p.legal → i.wellFormed p = true →
    (∀ w ∈ encode i, isWord p w) ∧ ∀ rest : List Int, decode (encode i ++ rest) = .ok (i, rest)

/-- Whatever decodes from Words is well formed, and its encoding is exactly the Words consumed: each run of Words has one meaning.
Rests on the numbering of D4 and D5 (log entry 4). -/
def Obligations.EncodeDecodeRoundTrip : Prop :=
  ∀ (p : Params) (ws rest : List Int) (i : Instr), (∀ w ∈ ws, isWord p w) → decode ws = .ok (i, rest) →
    i.wellFormed p = true ∧ encode i ++ rest = ws

/-- R97, R98, R113: an instruction is one opcode Word and its operand Words; a register, immediate or address operand is one
Word and a string of `L` characters is `L + 1`. -/
def Obligations.EncodedLengthIsOnePlusOperandWords : Prop :=
  (∀ i : Instr, (encode i).length = i.size) ∧
  (∀ i : Instr, i.size = 1 + (i.operands.map Operand.words).sum) ∧
  (∀ text : List Int, (encode (.cstr text)).length = 1 + (text.length + 1)) ∧
  encode (.cstr [104, 105]) = [11, 104, 105, 0]

/-- A few Words written out from V5 and the table of section 5 of spec/95_test_vectors.md decode to their instructions. -/
def Obligations.SampleWordsDecode : Prop :=
  decode [3, 13, -1] = .ok (.set .eip (-1), []) ∧
  decode [4, 8, 100] = .ok (.load .xp 100, []) ∧
  decode [9, 13] = .ok (.inc .eip, []) ∧
  decode [11, 104, 105, 0] = .ok (.cstr [104, 105], []) ∧
  decode [15, 12] = .ok (.jnz 12, []) ∧
  decode [22] = .ok (.resume, []) ∧
  decode [23] = .error (.unknownOpcode 23) ∧
  decode [9, 14] = .error (.badRegister 14)

/-- R103 and R105 with the numbering of D5: a Word is refused as an opcode exactly when it is below 0 or above 22. -/
def Obligations.OpcodesAreZeroToTwentyTwo : Prop :=
  ∀ (w : Int) (ws : List Int), decode (w :: ws) = .error (.unknownOpcode w) ↔ (w < 0 ∨ 22 < w)

/-- R94, R96, R104 with the indices of D4: a Word names a register exactly when it is 0 to 13, and then it is that register's
index. -/
def Obligations.RegisterIndicesAreZeroToThirteen : Prop :=
  (∀ w : Int, regOfWord w = none ↔ NoRegister w) ∧ (∀ (w : Int) (r : Reg), regOfWord w = some r ↔ w = wordOfReg r)

/-! ## Registers and memory -/

/-- R7, R21, R31: a write to a register changes that register, to any Word, and nothing else. -/
def Obligations.RegisterWriteChangesOneRegister : Prop :=
  ∀ (s : State) (r : Reg) (v : Int),
    (s.setReg r v).reg r = v ∧ SameRegsExcept [r] s (s.setReg r v) ∧ (s.setReg r v).flags = s.flags ∧
    SameMemory s (s.setReg r v) ∧ SameRest s (s.setReg r v)

/-- R63, R64: a read or write of an address outside `0 .. N-1` faults; a read inside gives the cell; a write inside changes
exactly that cell, and a later read gives the value written (R71). -/
def Obligations.MemoryAccessIsBoundsChecked : Prop :=
  ∀ (s : State) (a v : Int), s.mem.wf →
    (s.valid a → s.memRead a = .ok (s.cell a.toNat)) ∧
    (¬ s.valid a → s.memRead a = .error .invalidAddress ∧ s.memWrite a v = .error .invalidAddress) ∧
    (s.valid a → ∃ t, s.memWrite a v = .ok t ∧ t.memRead a = .ok v ∧ SameMemoryExcept a.toNat s t ∧
      t.regs = s.regs ∧ t.flags = s.flags ∧ SameRest s t)

/-- R65: `Fetch()` reads the cell at XP and advances XP by one, or faults out of bounds. -/
def Obligations.FetchReadsAtXpAndAdvances : Prop :=
  ∀ s : State, s.params.legal →
    (s.valid (s.reg .xp) →
      ∃ t, s.fetch = .ok (s.cell (s.reg .xp).toNat, t) ∧ t.reg .xp = s.reg .xp + 1 ∧
        SameRegsExcept [.xp] s t ∧ t.flags = s.flags ∧ SameMemory s t ∧ SameRest s t) ∧
    (¬ s.valid (s.reg .xp) → s.fetch = .error .invalidAddress)

/-! ## The step (spec/40_core_loop.md) -/

/-- When the Words at XP decode to `i`, the step is IP taken from XP, XP moved past the Words of `i`, `exec i`, and phase 4
(R130). -/
def Obligations.StepRunsTheDecodedInstruction : Prop :=
  ∀ (s : State) (i : Instr) (rest : List Int), s.flags.halt = false →
    decode (State.codeWords s.params.memSize s.snapshot) = .ok (i, rest) →
    step s = finishStep (exec i (s.snapshot.advance i.size))

/-- Where the encoding of a well-formed instruction stands in memory at XP, the step runs exactly that instruction, from IP at
its opcode Word and XP after its last Word (R90, R95, R130). -/
def Obligations.StepRunsTheEncodedInstruction : Prop :=
  ∀ (s : State) (i : Instr), i.wellFormed s.params = true → s.atWords (encode i) →
    step s = finishStep (exec i ((s.setReg .ip (s.reg .xp)).setReg .xp (wrap s.params (s.reg .xp + (encode i).length))))

/-- R134: for every state with Halt clear there is exactly one next state, and one extension of the output. -/
def Obligations.RunningStepIsTotal : Prop :=
  ∀ s : State, s.flags.halt = false →
    ∃! t, step s = .next t ∧ ∃ more, t.out = s.out ++ more

/-- R133: with Halt set no step is taken. That the model answers it with the fault `halted` is its own choice (log entry 5). -/
def Obligations.HaltedMachineTakesNoStep : Prop :=
  ∀ s : State, s.flags.halt = true → step s = .fault .halted

/-- R65, R130, R183: an opcode fetch out of bounds enters the trap, with IP and EIP at the bad address itself. -/
def Obligations.OpcodeFetchOutOfBoundsTraps : Prop :=
  ∀ s : State, s.flags.halt = false → s.Inv → ¬ s.valid (s.reg .xp) →
    ∃ t, step s = .next t ∧ AddressTrap s.snapshot t ∧ t.reg .ip = s.reg .xp ∧ t.reg .eip = s.reg .xp

/-- R103, R202 with the numbering of D5: a Word that is no opcode enters the trap and sets no flag but Exception. -/
def Obligations.UnknownOpcodeTraps : Prop :=
  ∀ (s : State) (w : Int), s.atWords [w] → (w < 0 ∨ 22 < w) →
    ∃ t, step s = .next t ∧ PlainTrap s.snapshot t ∧ t.reg .eip = s.reg .xp

/-- R95, R137, R201: when memory ends in the middle of an instruction, whichever it is, the fetch of its next Word enters the
trap, with EIP at its opcode Word; the instruction has no other effect. Rests on D6 and D13 (log entries 7, 10). -/
def Obligations.InstructionCutOffByMemoryEndTraps : Prop :=
  ∀ (s : State) (i : Instr) (n : Nat), i.wellFormed s.params = true → 0 < n → n < (encode i).length →
    s.atLastWords ((encode i).take n) →
    ∃ t, step s = .next t ∧ AddressTrap s.snapshot t ∧ t.reg .eip = s.reg .xp

/-- R96, R104, R212: a register-operand Word outside 0..13 enters the trap as soon as it is met, with no flag but Exception and
nothing written, whatever Words follow it (a bad address among them). First operand: set, load, store, move, push, pop, inc,
dec, test. Second operand: move, test. Rests on D7 and D31 (log entry 7). -/
def Obligations.BadRegisterIndexTraps : Prop :=
  (∀ (s : State) (op w : Int), op ∈ ([3, 4, 5, 6, 7, 8, 9, 10, 12] : List Int) → NoRegister w → s.atWords [op, w] →
    ∃ t, step s = .next t ∧ PlainTrap s.snapshot t ∧ t.reg .eip = s.reg .xp) ∧
  (∀ (s : State) (op w : Int) (r : Reg), op ∈ ([6, 12] : List Int) → NoRegister w →
    s.atWords [op, wordOfReg r, w] →
    ∃ t, step s = .next t ∧ PlainTrap s.snapshot t ∧ t.reg .eip = s.reg .xp)

/-- R75: a store to the cell at XP is what the next fetch reads. -/
def Obligations.StoredWordIsFetchedNext : Prop :=
  ∀ (s : State) (rs : Reg) (a : Int), s.mem.wf → s.valid a → s.reg .xp = a →
    ∃ t t', exec (.store rs a) s = .next t ∧ t.fetch = .ok (s.reg rs, t')

/-! ## Reset and the invariant (spec/10_state.md) -/

/-- R50, R250: what reset leaves, whatever the state before. The values of the seven flags other than Halt, of `INTID` and of
`out` are the spec's decisions D12 and D30 (log entry 15); that `N` stays is log entry 2. -/
def Obligations.ResetClearsEverything : Prop :=
  ∀ s : State,
    (∀ r, s.hostReset.reg r = 0) ∧ (∀ k, s.hostReset.cell k = 0) ∧
    s.hostReset.flags.halt = false ∧ s.hostReset.flags.exception = false ∧ s.hostReset.flags.zero = false ∧
    s.hostReset.flags.equal = false ∧ s.hostReset.flags.greater = false ∧ s.hostReset.flags.less = false ∧
    s.hostReset.flags.interrupt = false ∧ s.hostReset.flags.invalidAddress = false ∧
    s.hostReset.intid = 0 ∧ s.hostReset.out = [] ∧ s.hostReset.params = s.params

/-- The invariant holds right after reset, at every legal `W` and `N` (R5) and so at `State.reset`, whose values `W = 32` and
`N = 256` are the model's choice among them (the reference values of D1 and D3, log entries 1 and 2). That Interrupt and the
comparison flags are clear after reset is the spec's decision D12, and that `INTID` is 0 and `out` empty is D30 (log entry
15). -/
def Obligations.ResetMeetsTheInvariant : Prop :=
  State.reset.Inv ∧ ∀ p : Params, p.legal → (State.resetOf p).Inv

/-- Every step keeps the invariant (the parameters legal, a Word in every register and cell, in `INTID` and in every place of `out`,
memory canonical and inside the array, no interrupt request pending at a step boundary (R41), the comparison flags exclusive
(R43)) and the parameters themselves. -/
def Obligations.StepKeepsTheInvariant : Prop :=
  ∀ s t : State, s.Inv → step s = .next t → t.Inv ∧ t.params = s.params

/-- R41, R221: no interrupt request outlives a step, whatever state the step started in. -/
def Obligations.NoRequestOutlivesAStep : Prop :=
  ∀ s t : State, step s = .next t → t.flags.interrupt = false

/-- The host's operations keep the invariant: reset, a load of Words that fits, and the opening of a run. -/
def Obligations.HostOperationsKeepTheInvariant : Prop :=
  ∀ s : State, s.Inv →
    s.hostReset.Inv ∧ s.runStart.Inv ∧ ∀ (ws : List Int) (a : Int) (t : State),
      (∀ w ∈ ws, isWord s.params w) → s.hostLoad ws a = .next t → t.Inv

/-! ## Rules of the whole machine -/

/-- R45, R193, R220: the output is never shortened, and a step that starts with Interrupt clear and does not execute `int` adds
nothing to it and leaves `INTID`. -/
def Obligations.OnlyIntAddsOutput : Prop :=
  ∀ s t : State, step s = .next t →
    (∃ more, t.out = s.out ++ more) ∧
    (s.flags.interrupt = false → (∀ v, ¬ s.running (.int v)) → t.out = s.out ∧ t.intid = s.intid)

/-- R42: no step clears InvalidAddress. Sticky by the spec's decision D10 (log entry 9). -/
def Obligations.InvalidAddressIsSticky : Prop :=
  ∀ s t : State, step s = .next t → s.flags.invalidAddress = true → t.flags.invalidAddress = true

/-- R37 to R40, R43, R168: no step but one that executes `test` changes Zero, Equal, Greater or Less. -/
def Obligations.OnlyTestWritesTheCompareFlags : Prop :=
  ∀ s t : State, step s = .next t → (∀ ra rb, ¬ s.running (.test ra rb)) →
    t.flags.zero = s.flags.zero ∧ t.flags.equal = s.flags.equal ∧ t.flags.greater = s.flags.greater ∧
    t.flags.less = s.flags.less

/-- R35, R211: a step leaves Halt set exactly when it executes `halt`; no fault sets it. -/
def Obligations.OnlyHaltSetsHalt : Prop :=
  ∀ s t : State, step s = .next t → (t.flags.halt = true ↔ s.running .halt)

/-- R62, R64, R68: from a state of the invariant, a step changes no cell but the one `store` names or the one `push` finds at
SP. -/
def Obligations.OnlyStoreAndPushWriteMemory : Prop :=
  ∀ s t : State, s.Inv → step s = .next t →
    (∀ i, s.running i → ∀ k, mayStore s i ≠ some k → t.cell k = s.cell k) ∧
    ((∀ i, ¬ s.running i) → SameMemory s t)

/-- R24 to R32: from a state of the invariant, a step writes IP, XP, and beyond these only the destination operand and the
registers that R32 gives for its instruction (EIP where it can trap). -/
def Obligations.RegisterWritesAreThoseOfTheRule : Prop :=
  ∀ s t : State, s.Inv → step s = .next t →
    (∀ i, s.running i → SameRegsExcept (.ip :: .xp :: mayWrite i) s t) ∧
    ((∀ i, ¬ s.running i) → SameRegsExcept [.ip, .xp, .eip] s t)

/-- R204, R205: from a state of the invariant, a step that newly sets Exception has entered the trap, with EIP at the address
of its own opcode Word and XP from EXP. That trap entry sets Exception is the spec's decision D11 (log entry 9). -/
def Obligations.TrapsArePreciseInPosition : Prop :=
  ∀ s t : State, s.Inv → step s = .next t → s.flags.exception = false → t.flags.exception = true →
    t.reg .eip = s.reg .xp ∧ t.reg .xp = s.reg .exp

/-- R34: a program can observe only Zero and Equal. Two states that differ only in Exception, Greater, Less and InvalidAddress
step to states that differ only there. -/
def Obligations.HiddenFlagsDoNotInfluenceExecution : Prop :=
  ∀ s s' t : State, SameButHiddenFlags s s' → step s = .next t →
    ∃ t', step s' = .next t' ∧ SameButHiddenFlags t t'

/-! ## Each instruction: where it completes, its result and its frame. `exec` starts after the operand fetches, with XP at the
next instruction and IP at this one (R157). -/

/-- R135, R136, R137: `halt` sets Halt and changes nothing else; `noop`, and `cstr` once its string is stepped over, change
nothing. `noop` and `cstr` by the spec's decisions D14 and D13 (log entries 10, 11). -/
def Obligations.HaltNoopAndCstr : Prop :=
  ∀ s : State,
    (∃ t, exec .halt s = .next t ∧ t.flags = { s.flags with halt := true } ∧ SameRegsExcept [] s t ∧ SameMemory s t ∧
      SameRest s t) ∧
    exec .noop s = .next s ∧ ∀ text, exec (.cstr text) s = .next s

/-- R150, R153: `set` writes its immediate and `move` copies its second register into its first, and nothing else changes. The
direction of `move` is the spec's decision D15 (log entry 11). -/
def Obligations.SetAndMoveWriteTheDestination : Prop :=
  ∀ (s : State) (rd rs : Reg) (v : Int),
    (∃ t, exec (.set rd v) s = .next t ∧ t.reg rd = v ∧ SameRegsExcept [rd] s t ∧ t.flags = s.flags ∧
      SameMemory s t ∧ SameRest s t) ∧
    (∃ t, exec (.move rd rs) s = .next t ∧ t.reg rd = s.reg rs ∧ SameRegsExcept [rd] s t ∧ t.flags = s.flags ∧
      SameMemory s t ∧ SameRest s t)

/-- R151, R156: `load` from a valid address reads the cell into the register; from one out of range it enters the trap with
InvalidAddress and writes no register but EIP and XP. Direction, addressing and the unwritten destination are the spec's
decisions D16 and D9 (log entries 8, 11). -/
def Obligations.LoadReadsTheCellOrTraps : Prop :=
  ∀ (s : State) (rd : Reg) (a : Int),
    (s.valid a → ∃ t, exec (.load rd a) s = .next t ∧ t.reg rd = s.cell a.toNat ∧ SameRegsExcept [rd] s t ∧
      t.flags = s.flags ∧ SameMemory s t ∧ SameRest s t) ∧
    (¬ s.valid a → ∃ t, exec (.load rd a) s = .next t ∧ AddressTrap s t)

/-- R152: `store` to a valid address writes the register to that one cell; to one out of range it enters the trap with
InvalidAddress and writes no cell. Direction and addressing are the spec's decision D16 (log entry 11). -/
def Obligations.StoreWritesTheCellOrTraps : Prop :=
  ∀ (s : State) (rs : Reg) (a : Int), s.mem.wf →
    (s.valid a → ∃ t, exec (.store rs a) s = .next t ∧ t.cell a.toNat = s.reg rs ∧ SameMemoryExcept a.toNat s t ∧
      SameRegsExcept [] s t ∧ t.flags = s.flags ∧ SameRest s t) ∧
    (¬ s.valid a → ∃ t, exec (.store rs a) s = .next t ∧ AddressTrap s t)

/-- R154: `push` stores at SP, then lowers SP; with SP out of range it enters the trap, stores nothing and leaves SP. -/
def Obligations.PushStoresThenLowersSp : Prop :=
  ∀ (s : State) (rs : Reg), s.params.legal → s.mem.wf →
    (s.valid (s.reg .sp) →
      ∃ t, exec (.push rs) s = .next t ∧ t.cell (s.reg .sp).toNat = s.reg rs ∧
        SameMemoryExcept (s.reg .sp).toNat s t ∧ t.reg .sp = s.reg .sp - 1 ∧
        SameRegsExcept [.sp] s t ∧ t.flags = s.flags ∧ SameRest s t) ∧
    (¬ s.valid (s.reg .sp) → ∃ t, exec (.push rs) s = .next t ∧ AddressTrap s t)

/-- R155: `pop` raises SP, then loads the register from it (`pop sp` ends with the popped value in SP); with the raised SP out
of range it enters the trap, SP stays raised, and no register but SP, EIP and XP is written (D9, log entry 8). -/
def Obligations.PopRaisesSpThenLoads : Prop :=
  ∀ (s : State) (rd : Reg),
    (s.valid (wrap s.params (s.reg .sp + 1)) →
      ∃ t, exec (.pop rd) s = .next t ∧ t.reg rd = s.cell (wrap s.params (s.reg .sp + 1)).toNat ∧
        (rd ≠ .sp → t.reg .sp = wrap s.params (s.reg .sp + 1)) ∧ SameRegsExcept [rd, .sp] s t ∧ t.flags = s.flags ∧
        SameMemory s t ∧ SameRest s t) ∧
    (¬ s.valid (wrap s.params (s.reg .sp + 1)) →
      ∃ t, exec (.pop rd) s = .next t ∧ AddressTrap (s.setReg .sp (wrap s.params (s.reg .sp + 1))) t)

/-- R155: "`push r; pop r` restores the original register value and leaves SP unchanged", for every register, when SP is a
valid address; the one cell it writes keeps the pushed value. -/
def Obligations.PushThenPopRestores : Prop :=
  ∀ (s : State) (r : Reg), s.params.legal → s.mem.wf → s.valid (s.reg .sp) →
    ∃ t u, exec (.push r) s = .next t ∧ exec (.pop r) t = .next u ∧ SameRegsExcept [] s u ∧
      u.cell (s.reg .sp).toNat = s.reg r ∧ SameMemoryExcept (s.reg .sp).toNat s u ∧ u.flags = s.flags ∧ SameRest s u

/-- R165, R166, R168, R169: `inc` and `dec` add and subtract one, wrapping at the ends of the Word range whatever its width, and
write no flag. By the spec's decisions D2 and D17 (log entry 11); the width is the parameter of D1 (log entry 1). -/
def Obligations.IncAndDecWrap : Prop :=
  ∀ (s : State) (r : Reg), s.params.legal → isWord s.params (s.reg r) →
    (∃ t, exec (.inc r) s = .next t ∧
      t.reg r = (if s.reg r = s.params.maxWord then s.params.minWord else s.reg r + 1) ∧
      SameRegsExcept [r] s t ∧ t.flags = s.flags ∧ SameMemory s t ∧ SameRest s t) ∧
    (∃ t, exec (.dec r) s = .next t ∧
      t.reg r = (if s.reg r = s.params.minWord then s.params.maxWord else s.reg r - 1) ∧
      SameRegsExcept [r] s t ∧ t.flags = s.flags ∧ SameMemory s t ∧ SameRest s t)

/-- R167: `test` writes Zero from its first operand and Equal, Greater, Less from the signed comparison, exactly one of the
three set; no other flag, no register and no cell changes. -/
def Obligations.TestWritesFourFlags : Prop :=
  ∀ (s : State) (ra rb : Reg),
    ∃ t, exec (.test ra rb) s = .next t ∧
      (t.flags.zero = true ↔ s.reg ra = 0) ∧
      (t.flags.equal = true ↔ s.reg ra = s.reg rb) ∧
      (t.flags.greater = true ↔ s.reg ra > s.reg rb) ∧
      (t.flags.less = true ↔ s.reg ra < s.reg rb) ∧
      (t.flags.equal = true ∨ t.flags.greater = true ∨ t.flags.less = true) ∧ t.flags.compareOk ∧
      t.flags.halt = s.flags.halt ∧ t.flags.exception = s.flags.exception ∧
      t.flags.interrupt = s.flags.interrupt ∧ t.flags.invalidAddress = s.flags.invalidAddress ∧
      SameRegsExcept [] s t ∧ SameMemory s t ∧ SameRest s t

/-- R175 to R180: `jump` goes to its address; `jz jnz je jne` go there when Zero is set, Zero is clear, Equal is set, Equal is
clear, and otherwise fall through; nothing else changes. -/
def Obligations.JumpsWriteOnlyXp : Prop :=
  ∀ (s : State) (a : Int),
    (∃ t, exec (.jump a) s = .next t ∧ t.reg .xp = a ∧
      SameRegsExcept [.xp] s t ∧ t.flags = s.flags ∧ SameMemory s t ∧ SameRest s t) ∧
    (∃ t, exec (.jz a) s = .next t ∧ t.reg .xp = (if s.flags.zero = true then a else s.reg .xp) ∧
      SameRegsExcept [.xp] s t ∧ t.flags = s.flags ∧ SameMemory s t ∧ SameRest s t) ∧
    (∃ t, exec (.jnz a) s = .next t ∧ t.reg .xp = (if s.flags.zero = true then s.reg .xp else a) ∧
      SameRegsExcept [.xp] s t ∧ t.flags = s.flags ∧ SameMemory s t ∧ SameRest s t) ∧
    (∃ t, exec (.je a) s = .next t ∧ t.reg .xp = (if s.flags.equal = true then a else s.reg .xp) ∧
      SameRegsExcept [.xp] s t ∧ t.flags = s.flags ∧ SameMemory s t ∧ SameRest s t) ∧
    (∃ t, exec (.jne a) s = .next t ∧ t.reg .xp = (if s.flags.equal = true then s.reg .xp else a) ∧
      SameRegsExcept [.xp] s t ∧ t.flags = s.flags ∧ SameMemory s t ∧ SameRest s t)

/-- R181, R182: `call` saves the address of the next instruction in RP and goes to its operand; `ret` goes to RP and leaves it;
neither touches SP, a flag or memory. -/
def Obligations.CallAndRetGoThroughRp : Prop :=
  ∀ (s : State) (a : Int),
    (∃ t, exec (.call a) s = .next t ∧ t.reg .rp = s.reg .xp ∧ t.reg .xp = a ∧ SameRegsExcept [.rp, .xp] s t ∧
      t.flags = s.flags ∧ SameMemory s t ∧ SameRest s t) ∧
    (∃ t, exec .ret s = .next t ∧ t.reg .xp = s.reg .rp ∧ SameRegsExcept [.xp] s t ∧ t.flags = s.flags ∧
      SameMemory s t ∧ SameRest s t)

/-- R190: `settrap` writes EXP, any Word, and nothing else. -/
def Obligations.SettrapWritesExp : Prop :=
  ∀ (s : State) (a : Int),
    ∃ t, exec (.settrap a) s = .next t ∧ t.reg .exp = a ∧ SameRegsExcept [.exp] s t ∧ t.flags = s.flags ∧
      SameMemory s t ∧ SameRest s t

/-- R191, R204, R206: `raise` saves IP in EIP, goes to EXP and sets Exception; it saves and changes nothing else, InvalidAddress
least of all. That Exception is set is the spec's decision D11 (log entry 9). -/
def Obligations.RaiseEntersTheTrap : Prop :=
  ∀ s : State, ∃ t, exec .raise s = .next t ∧ PlainTrap s t

/-- R192, R208: `resume` goes to EIP, clears Exception and restores nothing else; EIP and InvalidAddress stay. That Exception is
cleared is the spec's decision D11 (log entry 9). -/
def Obligations.ResumeGoesToEip : Prop :=
  ∀ s : State, ∃ t, exec .resume s = .next t ∧ t.reg .xp = s.reg .eip ∧ t.flags = { s.flags with exception := false } ∧
    SameRegsExcept [.xp] s t ∧ SameMemory s t ∧ SameRest s t

/-- R193, phase 3: `int` latches its identifier in `INTID` and sets Interrupt, and changes nothing else. The latch is the spec's
decision D18 (log entry 12). -/
def Obligations.IntLatchesTheRequest : Prop :=
  ∀ (s : State) (v : Int),
    ∃ t, exec (.int v) s = .next t ∧ t.intid = v ∧ t.flags = { s.flags with interrupt := true } ∧
      SameRegsExcept [] s t ∧ SameMemory s t ∧ t.out = s.out ∧ t.params = s.params

/-! ## Whole steps, from the Words in memory to the state after phase 4. The opcode and register numbers are those the cited rules
give, which the spec marks as its decisions D4 and D5 (log entry 4). -/

/-- R175, R182: the step of `jump` goes to its operand, any Word, and changes only XP and IP; where memory ends before the
operand Word it enters the trap. The step of `ret` goes to RP, any Word, and changes only XP and IP. -/
def Obligations.StepOfJumpAndRet : Prop :=
  (∀ (s : State) (a : Int), s.atWords [13, a] → ∃ t, step s = .next t ∧ Moved a s t) ∧
  (∀ s : State, s.atLastWords [13] → ∃ t, step s = .next t ∧ AddressTrap s.snapshot t) ∧
  (∀ s : State, s.atWords [19] → ∃ t, step s = .next t ∧ Moved (s.reg .rp) s t)

/-- R176 to R179: the steps of `jz`, `jnz`, `je`, `jne` go to their operand if Zero is set, Zero is clear, Equal is set, Equal
is clear, and otherwise to the instruction after them; they change only XP and IP. -/
def Obligations.StepOfConditionalJumps : Prop :=
  ∀ (s : State) (a : Int),
    (s.atWords [14, a] → ∃ t, step s = .next t ∧
      Moved (if s.flags.zero = true then a else wrap s.params (s.reg .xp + 2)) s t) ∧
    (s.atWords [15, a] → ∃ t, step s = .next t ∧
      Moved (if s.flags.zero = false then a else wrap s.params (s.reg .xp + 2)) s t) ∧
    (s.atWords [16, a] → ∃ t, step s = .next t ∧
      Moved (if s.flags.equal = true then a else wrap s.params (s.reg .xp + 2)) s t) ∧
    (s.atWords [17, a] → ∃ t, step s = .next t ∧
      Moved (if s.flags.equal = false then a else wrap s.params (s.reg .xp + 2)) s t)

/-- R154, from the Words in memory: what `push r` stores (`A + 2` for `xp`, `A` for `ip`, the old SP for `sp`), where SP and XP
end, and every fault: SP out of range, the operand Word beyond memory, an index that is no register's. -/
def Obligations.StepOfPush : Prop :=
  (∀ (s : State) (r : Reg), s.atWords [7, wordOfReg r] → s.valid (s.reg .sp) →
    ∃ t, step s = .next t ∧
      t.cell (s.reg .sp).toNat = operandValue s 2 r ∧
      SameMemoryExcept (s.reg .sp).toNat s t ∧ t.reg .sp = wrap s.params (s.reg .sp - 1) ∧
      t.reg .xp = wrap s.params (s.reg .xp + 2) ∧ t.reg .ip = s.reg .xp ∧ SameRegsExcept [.sp, .xp, .ip] s t ∧
      t.flags = s.flags ∧ SameRest s t) ∧
  (∀ (s : State) (r : Reg), s.atWords [7, wordOfReg r] → ¬ s.valid (s.reg .sp) →
    ∃ t, step s = .next t ∧ AddressTrap s.snapshot t) ∧
  (∀ s : State, s.atLastWords [7] → ∃ t, step s = .next t ∧ AddressTrap s.snapshot t) ∧
  (∀ (s : State) (w : Int), s.atWords [7, w] → NoRegister w → ∃ t, step s = .next t ∧ PlainTrap s.snapshot t)

/-- R155, from the Words in memory: what `pop r` loads, where SP, XP and IP end for every register (`pop sp` ends with the
popped value in SP, `pop xp` jumps to it), and every fault: the raised SP out of range (SP stays raised: D9, log entry 8), the
operand Word beyond memory, an index that is no register's (SP untouched). -/
def Obligations.StepOfPop : Prop :=
  (∀ (s : State) (r : Reg), s.atWords [8, wordOfReg r] → s.valid (wrap s.params (s.reg .sp + 1)) →
    ∃ t, step s = .next t ∧ t.reg r = s.cell (wrap s.params (s.reg .sp + 1)).toNat ∧
      (r ≠ .sp → t.reg .sp = wrap s.params (s.reg .sp + 1)) ∧ (r ≠ .xp → t.reg .xp = wrap s.params (s.reg .xp + 2)) ∧
      (r ≠ .ip → t.reg .ip = s.reg .xp) ∧ SameRegsExcept [r, .sp, .xp, .ip] s t ∧ t.flags = s.flags ∧
      SameMemory s t ∧ SameRest s t) ∧
  (∀ (s : State) (r : Reg), s.atWords [8, wordOfReg r] → ¬ s.valid (wrap s.params (s.reg .sp + 1)) →
    ∃ t, step s = .next t ∧ AddressTrap (s.snapshot.setReg .sp (wrap s.params (s.reg .sp + 1))) t) ∧
  (∀ s : State, s.atLastWords [8] → ∃ t, step s = .next t ∧ AddressTrap s.snapshot t) ∧
  (∀ (s : State) (w : Int), s.atWords [8, w] → NoRegister w → ∃ t, step s = .next t ∧ PlainTrap s.snapshot t)

/-- R167, from the Words in memory: the four flags from the signed values of the two operands, exactly one of Equal, Greater and
Less, no other flag, no register but XP and IP, no cell; and every fault, with none of the four flags written. -/
def Obligations.StepOfTest : Prop :=
  (∀ (s : State) (ra rb : Reg), s.atWords [12, wordOfReg ra, wordOfReg rb] →
    ∃ t, step s = .next t ∧
      (t.flags.zero = true ↔ operandValue s 3 ra = 0) ∧
      (t.flags.equal = true ↔ operandValue s 3 ra = operandValue s 3 rb) ∧
      (t.flags.greater = true ↔ operandValue s 3 ra > operandValue s 3 rb) ∧
      (t.flags.less = true ↔ operandValue s 3 ra < operandValue s 3 rb) ∧
      (t.flags.equal = true ∨ t.flags.greater = true ∨ t.flags.less = true) ∧ t.flags.compareOk ∧
      t.flags.halt = s.flags.halt ∧ t.flags.exception = s.flags.exception ∧
      t.flags.interrupt = s.flags.interrupt ∧ t.flags.invalidAddress = s.flags.invalidAddress ∧
      t.reg .xp = wrap s.params (s.reg .xp + 3) ∧ t.reg .ip = s.reg .xp ∧ SameRegsExcept [.xp, .ip] s t ∧
      SameMemory s t ∧ SameRest s t) ∧
  (∀ s : State, s.atLastWords [12] → ∃ t, step s = .next t ∧ AddressTrap s.snapshot t) ∧
  (∀ (s : State) (ra : Reg), s.atLastWords [12, wordOfReg ra] → ∃ t, step s = .next t ∧ AddressTrap s.snapshot t) ∧
  (∀ (s : State) (w : Int), s.atWords [12, w] → NoRegister w → ∃ t, step s = .next t ∧ PlainTrap s.snapshot t) ∧
  (∀ (s : State) (ra : Reg) (w : Int), s.atWords [12, wordOfReg ra, w] → NoRegister w →
    ∃ t, step s = .next t ∧ PlainTrap s.snapshot t)

/-- R181, R190: the steps of `call` and `settrap`, and their one fault, in which RP and EXP are not written. -/
def Obligations.StepOfCallAndSettrap : Prop :=
  (∀ (s : State) (a : Int), s.atWords [18, a] →
    ∃ t, step s = .next t ∧ t.reg .rp = wrap s.params (s.reg .xp + 2) ∧ t.reg .xp = a ∧ t.reg .ip = s.reg .xp ∧
      SameRegsExcept [.rp, .xp, .ip] s t ∧ t.flags = s.flags ∧ SameMemory s t ∧ SameRest s t) ∧
  (∀ (s : State) (a : Int), s.atWords [20, a] →
    ∃ t, step s = .next t ∧ t.reg .exp = a ∧ t.reg .xp = wrap s.params (s.reg .xp + 2) ∧ t.reg .ip = s.reg .xp ∧
      SameRegsExcept [.exp, .xp, .ip] s t ∧ t.flags = s.flags ∧ SameMemory s t ∧ SameRest s t) ∧
  (∀ (s : State) (op : Int), op ∈ ([18, 20] : List Int) → s.atLastWords [op] →
    ∃ t, step s = .next t ∧ AddressTrap s.snapshot t)

/-- R135, R150: the step of `halt`; the step of `set` for every destination (`set xp, v` is a jump) and each of its faults, in
which the destination is not written. -/
def Obligations.StepOfHaltAndSet : Prop :=
  (∀ s : State, s.atWords [0] →
    ∃ t, step s = .next t ∧ t.reg .xp = wrap s.params (s.reg .xp + 1) ∧ t.reg .ip = s.reg .xp ∧
      SameRegsExcept [.xp, .ip] s t ∧ t.flags = { s.flags with halt := true } ∧ SameMemory s t ∧ SameRest s t) ∧
  (∀ (s : State) (rd : Reg) (v : Int), s.atWords [3, wordOfReg rd, v] →
    ∃ t, step s = .next t ∧ t.reg rd = v ∧ (rd ≠ .xp → t.reg .xp = wrap s.params (s.reg .xp + 3)) ∧
      (rd ≠ .ip → t.reg .ip = s.reg .xp) ∧ SameRegsExcept [rd, .xp, .ip] s t ∧ t.flags = s.flags ∧ SameMemory s t ∧
      SameRest s t) ∧
  (∀ s : State, s.atLastWords [3] → ∃ t, step s = .next t ∧ AddressTrap s.snapshot t) ∧
  (∀ (s : State) (rd : Reg), s.atLastWords [3, wordOfReg rd] → ∃ t, step s = .next t ∧ AddressTrap s.snapshot t) ∧
  (∀ (s : State) (w : Int), s.atWords [3, w] → NoRegister w → ∃ t, step s = .next t ∧ PlainTrap s.snapshot t)

/-! ## The software interrupt's services (spec/60_exceptions.md) -/

/-- R193, R215, R217, R218: the whole steps of `int 0` (print-integer), which appends the decimal text of R0, of `int 1`
(print-character), which appends R0 as it is, and of `int v` for any other `v` but 2, which appends nothing. `INTID` keeps the
identifier and nothing else changes. Service numbers, parameter register and format are the spec's decisions D18 to D21 (log
entries 4, 12, 13). -/
def Obligations.StepOfIntWithoutString : Prop :=
  ∀ (s : State) (v : Int), s.atWords [1, v] → v ≠ 2 →
    ∃ t, step s = .next t ∧
      t.out = s.out ++ (if v = 0 then integerText s.params (s.reg .r0) else if v = 1 then [s.reg .r0] else []) ∧
      t.intid = v ∧ t.reg .xp = wrap s.params (s.reg .xp + 2) ∧ t.reg .ip = s.reg .xp ∧
      SameRegsExcept [.xp, .ip] s t ∧ t.flags = s.flags ∧ SameMemory s t ∧ t.params = s.params

/-- R217: the decimal text of a Word is `-` (45) exactly for a negative one, then digits `48 + d` whose value in base ten is the
magnitude (the most negative Word among them), with no leading zero but for the single digit of 0. Format: D21 (log entry
13). -/
def Obligations.IntegerTextIsTheDecimalValue : Prop :=
  ∀ (p : Params) (v : Int), p.legal → isWord p v → ∃ ds : List Nat, ds ≠ [] ∧ (∀ d ∈ ds, d ≤ 9) ∧
    ds.foldl (fun n d => 10 * n + d) 0 = v.natAbs ∧ (ds.head? = some 0 → ds = [0]) ∧
    integerText p v = (if v < 0 then [45] else []) ++ ds.map (fun d => ((48 + d : Nat) : Int))

/-- R219: print-string on a terminated string emits its characters and changes nothing else; on one that reaches the end of
memory it emits them and then enters the trap, with EIP at the `int`; on an address out of range it enters the trap and emits
nothing. Interrupt is clear afterwards (R221). Numbers and D9, D23: log entries 4, 8, 12. -/
def Obligations.StepOfPrintString : Prop :=
  (∀ (s : State) (text : List Int), s.atWords [1, 2] → (∀ c ∈ text, c ≠ 0) →
    s.hasWords (s.reg .r0) (text ++ [0]) →
    ∃ t, step s = .next t ∧ t.out = s.out ++ text ∧ t.intid = 2 ∧ t.reg .xp = wrap s.params (s.reg .xp + 2) ∧
      t.reg .ip = s.reg .xp ∧ SameRegsExcept [.xp, .ip] s t ∧ t.flags = s.flags ∧ SameMemory s t ∧
      t.params = s.params) ∧
  (∀ (s : State) (text : List Int), s.atWords [1, 2] → (∀ c ∈ text, c ≠ 0) → s.hasWords (s.reg .r0) text →
    s.reg .r0 + text.length = s.params.memSize →
    ∃ t, step s = .next t ∧ t.out = s.out ++ text ∧ t.intid = 2 ∧ t.reg .xp = s.reg .exp ∧ t.reg .eip = s.reg .xp ∧
      t.reg .ip = s.reg .xp ∧ SameRegsExcept [.xp, .ip, .eip] s t ∧
      t.flags = { s.flags with exception := true, invalidAddress := true } ∧ SameMemory s t ∧
      t.params = s.params) ∧
  (∀ s : State, s.atWords [1, 2] → ¬ s.valid (s.reg .r0) →
    ∃ t, step s = .next t ∧ t.out = s.out ∧ t.intid = 2 ∧ t.reg .xp = s.reg .exp ∧ t.reg .eip = s.reg .xp ∧
      t.reg .ip = s.reg .xp ∧ SameRegsExcept [.xp, .ip, .eip] s t ∧
      t.flags = { s.flags with exception := true, invalidAddress := true } ∧ SameMemory s t ∧
      t.params = s.params)

/-! ## The host's operations and runs (spec/70_reset_and_hazards.md) -/

/-- R252: `run()` clears Halt, sets XP, IP and RP to 0 and SP to `N - 1`, writes nothing else, and goes on as
`continueExecution`. -/
def Obligations.RunStartsAtZero : Prop :=
  ∀ s : State, s.params.legal →
    s.runStart.reg .xp = 0 ∧ s.runStart.reg .ip = 0 ∧ s.runStart.reg .sp = s.params.memSize - 1 ∧
    s.runStart.reg .rp = 0 ∧ SameRegsExcept [.xp, .ip, .sp, .rp] s s.runStart ∧
    s.runStart.flags = { s.flags with halt := false } ∧ SameMemory s s.runStart ∧ SameRest s s.runStart ∧
    ∀ n, State.runFor n s = State.continueFor n s.runStart

/-- R77: a host load that fits writes its Words to the cells from the address up and changes nothing else; one that does not fit
is refused (the refusal is the spec's decision D24, log entry 14). -/
def Obligations.HostLoadWritesTheBlock : Prop :=
  ∀ (s : State) (ws : List Int) (a : Int), s.mem.wf →
    (0 ≤ a ∧ a + ws.length ≤ s.params.memSize →
      ∃ t, s.hostLoad ws a = .next t ∧ t.hasWords a ws ∧
        (∀ k, (k < a.toNat ∨ a.toNat + ws.length ≤ k) → t.cell k = s.cell k) ∧ SameRegsExcept [] s t ∧
        t.flags = s.flags ∧ SameRest s t) ∧
    (¬ (0 ≤ a ∧ a + ws.length ≤ s.params.memSize) → s.hostLoad ws a = .refused .loadDoesNotFit)

/-- R11, R133, R254: a run ends only with Halt set, in one state at most; called with Halt set it takes no step and changes
nothing; otherwise it takes one step and goes on. -/
def Obligations.RunsEndExactlyAtHalt : Prop :=
  (∀ s t : State, RunEnds s t → t.flags.halt = true) ∧
  (∀ s t t' : State, RunEnds s t → RunEnds s t' → t = t') ∧
  (∀ s : State, s.flags.halt = true → RunEnds s s) ∧
  (∀ s t u : State, step s = .next t → (RunEnds s u ↔ RunEnds t u))

/-- R211: with an invalid trap target, once XP is out of range the machine loops for ever; likewise when the trap target holds
an unknown opcode. A fault never ends a run: the spec's decision D32. -/
def Obligations.FaultLoopsDiverge : Prop :=
  (∀ s : State, s.flags.halt = false → s.Inv → ¬ s.valid (s.reg .exp) → ¬ s.valid (s.reg .xp) → Diverges s) ∧
  (∀ (s : State) (w : Int), s.atWords [w] → (w < 0 ∨ 22 < w) → s.reg .exp = s.reg .xp → Diverges s)
end

