-- ==== Sys2Proof/Laws/Decode.lean ====
section
/-! SUPPORT. The small lemmas of the decoder and the encoder: what each operand reader can answer, and the Words of each
format. -/

namespace Sys2Proof

@[simp] theorem regOfWord_wordOfReg (r : Reg) : regOfWord (wordOfReg r) = some r := by
  cases r <;> decide

/-- A Word that names a register is that register's index. -/
theorem wordOfReg_of_regOfWord {w : Int} {r : Reg} (h : regOfWord w = some r) : wordOfReg r = w := by
  have key : ∀ t : List (Int × Reg), (∀ c ∈ t, c.1 = wordOfReg c.2) → t.lookup w = some r → wordOfReg r = w := by
    intro t
    induction t with
    | nil => intro _ h; cases h
    | cons c t ih =>
      intro ht h
      obtain ⟨k, r'⟩ := c
      by_cases hk : w = k
      · subst hk
        have hr : some r' = some r := by simpa [List.lookup] using h
        cases hr
        exact (ht (w, r) (by simp)).symm
      · have hb : (w == k) = false := by simpa using hk
        rw [List.lookup, hb] at h
        exact ih (fun c hc => ht c (by simp [hc])) h
  exact key regTable (by decide) h

@[simp] theorem takeWord_cons (w : Int) (ws : List Int) : takeWord (w :: ws) = .ok (w, ws) := rfl

@[simp] theorem takeReg_wordOfReg (r : Reg) (ws : List Int) : takeReg (wordOfReg r :: ws) = .ok (r, ws) := by
  simp [takeReg]

/-- What `takeWord` can answer. -/
theorem takeWord_ok {ws rest : List Int} {v : Int} (h : takeWord ws = .ok (v, rest)) : ws = v :: rest := by
  cases ws <;> simp_all [takeWord]

/-- What `takeReg` can answer. -/
theorem takeReg_ok {ws rest : List Int} {r : Reg} (h : takeReg ws = .ok (r, rest)) : ws = wordOfReg r :: rest := by
  cases ws with
  | nil => simp [takeReg] at h
  | cons w ws =>
    simp only [takeReg] at h
    split at h
    · next hr =>
      cases h
      rw [wordOfReg_of_regOfWord hr]
    · cases h

/-- What `takeString` can answer: the text has no 0, and its terminator is consumed. -/
theorem takeString_ok {ws text rest : List Int} (h : takeString ws = .ok (text, rest)) :
    ws = text ++ 0 :: rest ∧ ∀ c ∈ text, c ≠ 0 := by
  induction ws generalizing text with
  | nil => simp [takeString] at h
  | cons c ws ih =>
    simp only [takeString] at h
    split at h
    · next hc => cases h; simp [hc]
    · next hc =>
      split at h
      · next text' rest' ht =>
        cases h
        obtain ⟨h1, h2⟩ := ih ht
        refine ⟨by simp [h1], ?_⟩
        intro d hd
        rcases List.mem_cons.1 hd with rfl | hd
        · exact hc
        · exact h2 d hd
      · cases h

/-- A terminated text is read back. -/
theorem takeString_append (text rest : List Int) (h : ∀ c ∈ text, c ≠ 0) :
    takeString (text ++ 0 :: rest) = .ok (text, rest) := by
  induction text with
  | nil => simp [takeString]
  | cons c text ih =>
    have hc : c ≠ 0 := h c (by simp)
    simp only [List.cons_append, takeString, if_neg hc, ih fun d hd => h d (by simp [hd])]

/-- Words without a 0 run out. -/
theorem takeString_unterminated (text : List Int) (h : ∀ c ∈ text, c ≠ 0) :
    takeString text = .error .outOfWords := by
  induction text with
  | nil => rfl
  | cons c text ih =>
    have hc : c ≠ 0 := h c (by simp)
    simp only [takeString, if_neg hc, ih fun d hd => h d (by simp [hd])]

/-- Opcode Words are distinct: no Word has two rows. -/
theorem opcodeTable_nodup : (opcodeTable.map (·.1)).Nodup := by decide

/-- Register indices are distinct. -/
theorem regTable_nodup : (regTable.map (·.1)).Nodup := by decide

end Sys2Proof
end

