-- ==== Sys2Proof/Laws/State.lean ====
section
/-! SUPPORT. One lemma per field per update, and the reads of a register after each update. -/

namespace Sys2Proof.Machine

/-! ### The register file -/

theorem Regs.get_set (rf : Regs) (r r' : Reg) (v : Int) :
    (rf.set r v).get r' = if r' = r then v else rf.get r' := by
  cases r <;> cases r' <;> rfl

theorem Regs.ext_get (a b : Regs) (h : ∀ r, a.get r = b.get r) : a = b := by
  have h0 := h .r0; have h1 := h .r1; have h2 := h .r2; have h3 := h .r3
  have h4 := h .r4; have h5 := h .r5; have h6 := h .r6; have h7 := h .r7
  have h8 := h .xp; have h9 := h .ip; have h10 := h .sp; have h11 := h .rp
  have h12 := h .exp; have h13 := h .eip
  cases a; cases b; simp_all [Regs.get]

@[simp] theorem State.reg_setReg_same (s : State) (r : Reg) (v : Int) : (s.setReg r v).reg r = v := by
  simp [State.reg, State.setReg, Regs.get_set]

@[simp] theorem State.reg_setReg_ne (s : State) {r r' : Reg} (v : Int) (h : r' ≠ r) :
    (s.setReg r v).reg r' = s.reg r' := by
  simp [State.reg, State.setReg, Regs.get_set, h]

/-! ### setReg -/

@[simp] theorem State.flags_setReg (s : State) (r : Reg) (v : Int) : (s.setReg r v).flags = s.flags := rfl
@[simp] theorem State.mem_setReg (s : State) (r : Reg) (v : Int) : (s.setReg r v).mem = s.mem := rfl
@[simp] theorem State.intid_setReg (s : State) (r : Reg) (v : Int) : (s.setReg r v).intid = s.intid := rfl
@[simp] theorem State.out_setReg (s : State) (r : Reg) (v : Int) : (s.setReg r v).out = s.out := rfl
@[simp] theorem State.params_setReg (s : State) (r : Reg) (v : Int) : (s.setReg r v).params = s.params := rfl
@[simp] theorem State.cell_setReg (s : State) (r : Reg) (v : Int) (k : Nat) : (s.setReg r v).cell k = s.cell k := rfl

/-! ### setFlags and the four flag writers -/

@[simp] theorem State.flags_setFlags (s : State) (f : Flags) : (s.setFlags f).flags = f := rfl
@[simp] theorem State.reg_setFlags (s : State) (f : Flags) (r : Reg) : (s.setFlags f).reg r = s.reg r := rfl
@[simp] theorem State.mem_setFlags (s : State) (f : Flags) : (s.setFlags f).mem = s.mem := rfl
@[simp] theorem State.intid_setFlags (s : State) (f : Flags) : (s.setFlags f).intid = s.intid := rfl
@[simp] theorem State.out_setFlags (s : State) (f : Flags) : (s.setFlags f).out = s.out := rfl
@[simp] theorem State.params_setFlags (s : State) (f : Flags) : (s.setFlags f).params = s.params := rfl
@[simp] theorem State.cell_setFlags (s : State) (f : Flags) (k : Nat) : (s.setFlags f).cell k = s.cell k := rfl

@[simp] theorem State.flags_setHalt (s : State) (b : Bool) : (s.setHalt b).flags = { s.flags with halt := b } := rfl
@[simp] theorem State.reg_setHalt (s : State) (b : Bool) (r : Reg) : (s.setHalt b).reg r = s.reg r := rfl
@[simp] theorem State.mem_setHalt (s : State) (b : Bool) : (s.setHalt b).mem = s.mem := rfl
@[simp] theorem State.intid_setHalt (s : State) (b : Bool) : (s.setHalt b).intid = s.intid := rfl
@[simp] theorem State.out_setHalt (s : State) (b : Bool) : (s.setHalt b).out = s.out := rfl
@[simp] theorem State.params_setHalt (s : State) (b : Bool) : (s.setHalt b).params = s.params := rfl
@[simp] theorem State.cell_setHalt (s : State) (b : Bool) (k : Nat) : (s.setHalt b).cell k = s.cell k := rfl

@[simp] theorem State.flags_setException (s : State) (b : Bool) :
    (s.setException b).flags = { s.flags with exception := b } := rfl
@[simp] theorem State.reg_setException (s : State) (b : Bool) (r : Reg) : (s.setException b).reg r = s.reg r := rfl
@[simp] theorem State.mem_setException (s : State) (b : Bool) : (s.setException b).mem = s.mem := rfl
@[simp] theorem State.intid_setException (s : State) (b : Bool) : (s.setException b).intid = s.intid := rfl
@[simp] theorem State.out_setException (s : State) (b : Bool) : (s.setException b).out = s.out := rfl
@[simp] theorem State.params_setException (s : State) (b : Bool) : (s.setException b).params = s.params := rfl
@[simp] theorem State.cell_setException (s : State) (b : Bool) (k : Nat) : (s.setException b).cell k = s.cell k := rfl

@[simp] theorem State.flags_setInterrupt (s : State) (b : Bool) :
    (s.setInterrupt b).flags = { s.flags with interrupt := b } := rfl
@[simp] theorem State.reg_setInterrupt (s : State) (b : Bool) (r : Reg) : (s.setInterrupt b).reg r = s.reg r := rfl
@[simp] theorem State.mem_setInterrupt (s : State) (b : Bool) : (s.setInterrupt b).mem = s.mem := rfl
@[simp] theorem State.intid_setInterrupt (s : State) (b : Bool) : (s.setInterrupt b).intid = s.intid := rfl
@[simp] theorem State.out_setInterrupt (s : State) (b : Bool) : (s.setInterrupt b).out = s.out := rfl
@[simp] theorem State.params_setInterrupt (s : State) (b : Bool) : (s.setInterrupt b).params = s.params := rfl
@[simp] theorem State.cell_setInterrupt (s : State) (b : Bool) (k : Nat) : (s.setInterrupt b).cell k = s.cell k := rfl

@[simp] theorem State.flags_setInvalidAddress (s : State) (b : Bool) :
    (s.setInvalidAddress b).flags = { s.flags with invalidAddress := b } := rfl
@[simp] theorem State.reg_setInvalidAddress (s : State) (b : Bool) (r : Reg) :
    (s.setInvalidAddress b).reg r = s.reg r := rfl
@[simp] theorem State.mem_setInvalidAddress (s : State) (b : Bool) : (s.setInvalidAddress b).mem = s.mem := rfl
@[simp] theorem State.intid_setInvalidAddress (s : State) (b : Bool) : (s.setInvalidAddress b).intid = s.intid := rfl
@[simp] theorem State.out_setInvalidAddress (s : State) (b : Bool) : (s.setInvalidAddress b).out = s.out := rfl
@[simp] theorem State.params_setInvalidAddress (s : State) (b : Bool) :
    (s.setInvalidAddress b).params = s.params := rfl
@[simp] theorem State.cell_setInvalidAddress (s : State) (b : Bool) (k : Nat) :
    (s.setInvalidAddress b).cell k = s.cell k := rfl

/-! ### setMem and setCell -/

@[simp] theorem State.mem_setMem (s : State) (m : Memory) : (s.setMem m).mem = m := rfl
@[simp] theorem State.reg_setMem (s : State) (m : Memory) (r : Reg) : (s.setMem m).reg r = s.reg r := rfl
@[simp] theorem State.flags_setMem (s : State) (m : Memory) : (s.setMem m).flags = s.flags := rfl
@[simp] theorem State.intid_setMem (s : State) (m : Memory) : (s.setMem m).intid = s.intid := rfl
@[simp] theorem State.out_setMem (s : State) (m : Memory) : (s.setMem m).out = s.out := rfl
@[simp] theorem State.params_setMem (s : State) (m : Memory) : (s.setMem m).params = s.params := rfl
@[simp] theorem State.cell_setMem (s : State) (m : Memory) (k : Nat) : (s.setMem m).cell k = m.read k := rfl

@[simp] theorem State.mem_setCell (s : State) (k : Nat) (v : Int) : (s.setCell k v).mem = s.mem.write k v := rfl
@[simp] theorem State.reg_setCell (s : State) (k : Nat) (v : Int) (r : Reg) : (s.setCell k v).reg r = s.reg r := rfl
@[simp] theorem State.flags_setCell (s : State) (k : Nat) (v : Int) : (s.setCell k v).flags = s.flags := rfl
@[simp] theorem State.intid_setCell (s : State) (k : Nat) (v : Int) : (s.setCell k v).intid = s.intid := rfl
@[simp] theorem State.out_setCell (s : State) (k : Nat) (v : Int) : (s.setCell k v).out = s.out := rfl
@[simp] theorem State.params_setCell (s : State) (k : Nat) (v : Int) : (s.setCell k v).params = s.params := rfl

/-! ### setIntid, emit -/

@[simp] theorem State.intid_setIntid (s : State) (v : Int) : (s.setIntid v).intid = v := rfl
@[simp] theorem State.reg_setIntid (s : State) (v : Int) (r : Reg) : (s.setIntid v).reg r = s.reg r := rfl
@[simp] theorem State.flags_setIntid (s : State) (v : Int) : (s.setIntid v).flags = s.flags := rfl
@[simp] theorem State.mem_setIntid (s : State) (v : Int) : (s.setIntid v).mem = s.mem := rfl
@[simp] theorem State.out_setIntid (s : State) (v : Int) : (s.setIntid v).out = s.out := rfl
@[simp] theorem State.params_setIntid (s : State) (v : Int) : (s.setIntid v).params = s.params := rfl
@[simp] theorem State.cell_setIntid (s : State) (v : Int) (k : Nat) : (s.setIntid v).cell k = s.cell k := rfl

@[simp] theorem State.out_emit (s : State) (c : Int) : (s.emit c).out = s.out ++ [c] := rfl
@[simp] theorem State.reg_emit (s : State) (c : Int) (r : Reg) : (s.emit c).reg r = s.reg r := rfl
@[simp] theorem State.flags_emit (s : State) (c : Int) : (s.emit c).flags = s.flags := rfl
@[simp] theorem State.mem_emit (s : State) (c : Int) : (s.emit c).mem = s.mem := rfl
@[simp] theorem State.intid_emit (s : State) (c : Int) : (s.emit c).intid = s.intid := rfl
@[simp] theorem State.params_emit (s : State) (c : Int) : (s.emit c).params = s.params := rfl
@[simp] theorem State.cell_emit (s : State) (c : Int) (k : Nat) : (s.emit c).cell k = s.cell k := rfl

/-! ### snapshot, advance -/

@[simp] theorem State.flags_snapshot (s : State) : s.snapshot.flags = s.flags := rfl
@[simp] theorem State.mem_snapshot (s : State) : s.snapshot.mem = s.mem := rfl
@[simp] theorem State.intid_snapshot (s : State) : s.snapshot.intid = s.intid := rfl
@[simp] theorem State.out_snapshot (s : State) : s.snapshot.out = s.out := rfl
@[simp] theorem State.params_snapshot (s : State) : s.snapshot.params = s.params := rfl
@[simp] theorem State.cell_snapshot (s : State) (k : Nat) : s.snapshot.cell k = s.cell k := rfl
@[simp] theorem State.reg_snapshot_ip (s : State) : s.snapshot.reg .ip = s.reg .xp := by simp [State.snapshot]
@[simp] theorem State.reg_snapshot_ne (s : State) {r : Reg} (h : r ≠ .ip) : s.snapshot.reg r = s.reg r := by
  simp [State.snapshot, h]

@[simp] theorem State.flags_advance (s : State) (n : Nat) : (s.advance n).flags = s.flags := rfl
@[simp] theorem State.mem_advance (s : State) (n : Nat) : (s.advance n).mem = s.mem := rfl
@[simp] theorem State.intid_advance (s : State) (n : Nat) : (s.advance n).intid = s.intid := rfl
@[simp] theorem State.out_advance (s : State) (n : Nat) : (s.advance n).out = s.out := rfl
@[simp] theorem State.params_advance (s : State) (n : Nat) : (s.advance n).params = s.params := rfl
@[simp] theorem State.cell_advance (s : State) (n k : Nat) : (s.advance n).cell k = s.cell k := rfl
@[simp] theorem State.reg_advance_xp (s : State) (n : Nat) :
    (s.advance n).reg .xp = wrap s.params (s.reg .xp + n) := by simp [State.advance]
@[simp] theorem State.reg_advance_ne (s : State) (n : Nat) {r : Reg} (h : r ≠ .xp) :
    (s.advance n).reg r = s.reg r := by
  simp [State.advance, h]

end Sys2Proof.Machine
end

