-- ==== Sys2Proof/Laws/Memory.lean ====
section
/-! SUPPORT. The memory: read after write, and the canonical form is kept by every operation that writes. -/

namespace Sys2Proof.Machine

/-- A cell below every listed address is not listed. -/
theorem Memory.read_of_lt (m : Memory) (a : Nat) (h : ∀ c ∈ m, a < c.1) : m.read a = Memory.absent := by
  induction m with
  | nil => rfl
  | cons c m ih =>
    obtain ⟨k, v⟩ := c
    have hk : a < k := h (k, v) (by simp)
    have : k ≠ a := by omega
    simp only [Memory.read, this, if_false]
    exact ih fun d hd => h d (by simp [hd])

/-- Writing lists no address but the written one and those listed before. -/
theorem Memory.write_fst_mem (m : Memory) (a : Nat) (v : Int) (c : Nat × Int) (h : c ∈ m.write a v) :
    c = (a, v) ∧ v ≠ Memory.absent ∨ c ∈ m := by
  induction m with
  | nil =>
    simp only [Memory.write] at h
    split at h <;> simp_all
  | cons d m ih =>
    obtain ⟨k, w⟩ := d
    simp only [Memory.write] at h
    split at h
    · split at h <;> simp_all
    · split at h
      · split at h <;> simp_all
        rcases h with h | h <;> simp [h]
      · rcases List.mem_cons.1 h with h | h
        · simp [h]
        · rcases ih h with h | h
          · exact .inl h
          · exact .inr (by simp [h])

/-- Every write keeps the canonical form. -/
theorem Memory.wf_write (m : Memory) (a : Nat) (v : Int) (h : m.wf) : (m.write a v).wf := by
  induction m with
  | nil =>
    simp only [Memory.write]
    split
    · exact h
    · simp_all [Memory.wf]
  | cons d m ih =>
    obtain ⟨k, w⟩ := d
    obtain ⟨hs, hv⟩ := h
    have hlt : ∀ c ∈ m, k < c.1 := (List.pairwise_cons.1 hs).1
    have hm : Memory.wf m := ⟨(List.pairwise_cons.1 hs).2, fun c hc => hv c (by simp [hc])⟩
    have hw : w ≠ Memory.absent := hv (k, w) (by simp)
    simp only [Memory.write]
    split
    · split
      · exact ⟨hs, hv⟩
      · next hak hne =>
        refine ⟨List.pairwise_cons.2 ⟨?_, hs⟩, ?_⟩
        · intro c hc
          rcases List.mem_cons.1 hc with rfl | hc
          · exact hak
          · exact Nat.lt_trans hak (hlt c hc)
        · intro c hc
          rcases List.mem_cons.1 hc with rfl | hc
          · exact hne
          · exact hv c hc
    · split
      · next h1 h2 =>
        split
        · exact hm
        · next hne =>
          subst h2
          refine ⟨List.pairwise_cons.2 ⟨hlt, hm.1⟩, ?_⟩
          intro c hc
          rcases List.mem_cons.1 hc with rfl | hc
          · exact hne
          · exact hm.2 c hc
      · next h1 h2 =>
        obtain ⟨hs', hv'⟩ := ih hm
        refine ⟨List.pairwise_cons.2 ⟨?_, hs'⟩, ?_⟩
        · intro c hc
          rcases Memory.write_fst_mem m a v c hc with ⟨rfl, _⟩ | hc
          · simp only; omega
          · exact hlt c hc
        · intro c hc
          rcases List.mem_cons.1 hc with rfl | hc
          · exact hw
          · exact hv' c hc

/-- Read after write: the written cell holds the value and every other cell is as before. -/
theorem Memory.read_write (m : Memory) (a : Nat) (v : Int) (b : Nat) (h : m.wf) :
    (m.write a v).read b = if b = a then v else m.read b := by
  induction m with
  | nil =>
    by_cases hv : v = Memory.absent <;> by_cases hb : b = a <;>
      simp_all [Memory.write, Memory.read, eq_comm]
  | cons d m ih =>
    obtain ⟨k, w⟩ := d
    obtain ⟨hs, hv⟩ := h
    have hlt : ∀ c ∈ m, k < c.1 := (List.pairwise_cons.1 hs).1
    have hm : Memory.wf m := ⟨(List.pairwise_cons.1 hs).2, fun c hc => hv c (by simp [hc])⟩
    simp only [Memory.write]
    split
    · next hak =>
      split
      · next hv0 =>
        by_cases hb : b = a
        · subst hb
          have : k ≠ b := by omega
          simp only [Memory.read, this, if_false, if_true]
          rw [Memory.read_of_lt m b fun c hc => Nat.lt_trans hak (hlt c hc), hv0]
        · simp [hb]
      · by_cases hb : b = a
        · simp [hb, Memory.read]
        · have : a ≠ b := fun e => hb e.symm
          simp only [Memory.read, this, if_false, hb]
    · split
      · next h1 h2 =>
        subst h2
        by_cases hb : b = a
        · subst hb
          split
          · next hv0 => simp [Memory.read_of_lt m b hlt, hv0]
          · simp [Memory.read]
        · have : a ≠ b := fun e => hb e.symm
          split <;> simp [Memory.read, this]
      · next h1 h2 =>
        simp only [Memory.read, ih hm]
        by_cases hk : k = b
        · subst hk
          have : ¬ k = a := fun e => h2 e.symm
          simp [this]
        · simp [hk]

/-- A cell after a write to a cell. -/
theorem State.cell_setCell (s : State) (k : Nat) (v : Int) (j : Nat) (h : s.mem.wf) :
    (s.setCell k v).cell j = if j = k then v else s.cell j :=
  Memory.read_write s.mem k v j h

/-- Placing Words keeps the canonical form. -/
theorem State.wf_placeWords (ws : List Int) (k : Nat) (s : State) (h : s.mem.wf) :
    (State.placeWords ws k s).mem.wf := by
  induction ws generalizing k s with
  | nil => exact h
  | cons w ws ih =>
    apply ih
    split
    · exact Memory.wf_write _ _ _ h
    · exact h

/-- Reset's memory is canonical, whatever the parameters. -/
theorem State.wf_resetOf (p : Params) : (State.resetOf p).mem.wf := by
  simp [State.resetOf, Memory.wf]

end Sys2Proof.Machine
end

