-- ==== Sys2Proof/Laws/Word.lean ====
section
/-! SUPPORT. The range of a Word and the arithmetic of `wrap`, at every width. -/

namespace Sys2Proof

theorem Params.half_pos (p : Params) : 0 < p.half := Nat.two_pow_pos _

/-- The modulus of `wrap` is `2^W` (R6). -/
theorem Params.two_mul_half (p : Params) (h : 1 ≤ p.wordBits) : 2 * p.half = 2 ^ p.wordBits := by
  rw [Params.half, Nat.mul_comm, ← Nat.pow_succ]
  congr 1
  omega

/-- At a legal width the least Word is at most -128 and the greatest at least 127 (D1). -/
theorem Params.legal.half_ge {p : Params} (h : p.legal) : 128 ≤ p.half :=
  Nat.pow_le_pow_right (n := 2) (by decide) (show 7 ≤ p.wordBits - 1 by have := h.1; omega)

theorem isWord_iff {p : Params} {v : Int} : isWord p v ↔ -(p.half : Int) ≤ v ∧ v < p.half := by
  simp only [isWord, Params.minWord, Params.maxWord]
  omega

/-- Every result of `wrap` is a Word. -/
theorem isWord_wrap (p : Params) (v : Int) : isWord p (wrap p v) := by
  have hp := p.half_pos
  have h1 := Int.le_bmod (x := v) (m := 2 * p.half) (by omega)
  have h2 := Int.bmod_lt (x := v) (m := 2 * p.half) (by omega)
  rw [isWord_iff, wrap]
  omega

/-- `wrap` of a Word is that Word. -/
theorem wrap_of_isWord {p : Params} {v : Int} (h : isWord p v) : wrap p v = v := by
  rw [isWord_iff] at h
  exact Int.bmod_eq_of_le (by omega) (by omega)

/-- Wrapping twice is wrapping once. -/
theorem wrap_wrap_add (p : Params) (a b : Int) : wrap p (wrap p a + b) = wrap p (a + b) := Int.bmod_add_bmod

/-- Small values are Words at every legal width: opcodes, register indices, character codes (D1). -/
theorem isWord_of_small {p : Params} (h : p.legal) {v : Int} (h1 : -128 ≤ v) (h2 : v ≤ 127) : isWord p v := by
  have := h.half_ge
  rw [isWord_iff]
  omega

/-- Every address from 0 to `N` is a Word (R5). -/
theorem isWord_of_address {p : Params} (h : p.legal) {v : Int} (h1 : 0 ≤ v) (h2 : v ≤ p.memSize) : isWord p v := by
  have := h.2.2
  rw [Params.maxWord] at this
  rw [isWord_iff]
  omega

end Sys2Proof
end

