-- ==== Sys2Proof/Laws/Ops.lean ====
section
/-! SUPPORT. One lemma for each shared operation that says everything it can do: the memory primitives, fetching, trap entry and
return, the services and phase 4. -/

namespace Sys2Proof.Machine

/-! ### Memory primitives -/

theorem State.memRead_valid {s : State} {a : Int} (h : s.valid a) : s.memRead a = .ok (s.cell a.toNat) := by
  simp only [State.memRead, if_pos h]

theorem State.memRead_invalid {s : State} {a : Int} (h : ¬ s.valid a) : s.memRead a = .error .invalidAddress := by
  simp only [State.memRead, if_neg h]

/-- What `memRead` can answer. -/
theorem State.memRead_ok {s : State} {a v : Int} (h : s.memRead a = .ok v) : s.valid a ∧ v = s.cell a.toNat := by
  by_cases hv : s.valid a
  · rw [State.memRead_valid hv] at h
    cases h
    exact ⟨hv, rfl⟩
  · rw [State.memRead_invalid hv] at h
    cases h

theorem State.memWrite_valid {s : State} {a : Int} (v : Int) (h : s.valid a) :
    s.memWrite a v = .ok (s.setCell a.toNat v) := by
  simp only [State.memWrite, if_pos h]

theorem State.memWrite_invalid {s : State} {a : Int} (v : Int) (h : ¬ s.valid a) :
    s.memWrite a v = .error .invalidAddress := by
  simp only [State.memWrite, if_neg h]

/-- What `memWrite` can answer. -/
theorem State.memWrite_ok {s t : State} {a v : Int} (h : s.memWrite a v = .ok t) :
    s.valid a ∧ t = s.setCell a.toNat v := by
  by_cases hv : s.valid a
  · rw [State.memWrite_valid v hv] at h
    cases h
    exact ⟨hv, rfl⟩
  · rw [State.memWrite_invalid v hv] at h
    cases h

/-- A valid address is its array index. -/
theorem State.valid_toNat {s : State} {a : Int} (h : s.valid a) : (a.toNat : Int) = a ∧ a.toNat < s.params.memSize := by
  have := Int.toNat_of_nonneg h.1
  have := h.2
  omega

/-- The address after a valid one does not wrap (R65). -/
theorem State.wrap_succ {s : State} {a : Int} (hs : s.params.legal) (h : s.valid a) : wrap s.params (a + 1) = a + 1 := by
  obtain ⟨h0, h1⟩ := h
  exact wrap_of_isWord (isWord_of_address hs (by omega) (by omega))

/-- A write by the core keeps the memory's form and stays in the array. -/
theorem State.memOk_setCell {s : State} {a : Int} (v : Int) (h : s.memOk) (ha : s.valid a) :
    (s.setCell a.toNat v).memOk := by
  refine ⟨Memory.wf_write _ _ _ h.1, ?_⟩
  intro c hc
  rcases Memory.write_fst_mem _ _ _ c hc with ⟨rfl, _⟩ | hc
  · exact (State.valid_toNat ha).2
  · exact h.2 c hc

/-! ### Fetching -/

theorem State.fetch_valid {s : State} (h : s.valid (s.reg .xp)) :
    s.fetch = .ok (s.cell (s.reg .xp).toNat, s.advance 1) := by
  simp only [State.fetch, State.memRead_valid h]
  rfl

theorem State.fetch_invalid {s : State} (h : ¬ s.valid (s.reg .xp)) : s.fetch = .error .invalidAddress := by
  simp only [State.fetch, State.memRead_invalid h]

theorem State.codeWords_invalid {s : State} (h : ¬ s.valid (s.reg .xp)) (n : Nat) : State.codeWords n s = [] := by
  cases n with
  | zero => rfl
  | succ n => simp only [State.codeWords, State.fetch_invalid h]

theorem State.codeWords_valid {s : State} (h : s.valid (s.reg .xp)) (n : Nat) :
    State.codeWords (n + 1) s = s.cell (s.reg .xp).toNat :: State.codeWords n (s.advance 1) := by
  simp only [State.codeWords, State.fetch_valid h]

theorem State.advance_advance (s : State) (m n : Nat) : (s.advance m).advance n = s.advance (m + n) := by
  have hreg : (s.advance m).reg .xp = wrap s.params (s.reg .xp + m) := s.reg_advance_xp m
  have hw : wrap s.params ((wrap s.params (s.reg .xp + m)) + n) = wrap s.params (s.reg .xp + ((m + n : Nat) : Int)) := by
    rw [wrap_wrap_add]
    congr 1
    push_cast
    ring
  have hset : ∀ v : Int, (s.advance m).setReg .xp v = s.setReg .xp v := by
    intro v
    rfl
  rw [State.advance, hreg, State.params_advance, hw, hset]
  rfl

theorem State.advance_zero {s : State} (hx : isWord s.params (s.reg .xp)) : s.advance 0 = s := by
  have h : (wrap s.params (s.reg .xp + ((0 : Nat) : Int))) = s.reg .xp := by
    simpa using wrap_of_isWord hx
  rw [State.advance, h]
  rfl

/-- The first Word of a block that stands in memory, and the rest of the block one address further. -/
theorem State.hasWords_cons {s : State} {a : Int} {w : Int} {ws : List Int} (hs : s.params.legal)
    (h : s.hasWords a (w :: ws)) :
    s.valid a ∧ w = s.cell a.toNat ∧ s.hasWords (wrap s.params (a + 1)) ws ∧ wrap s.params (a + 1) = a + 1 := by
  obtain ⟨h0, h1, h2⟩ := h
  simp only [List.length_cons] at h1
  push_cast at h1
  have hv : s.valid a := ⟨h0, by omega⟩
  have hw : wrap s.params (a + 1) = a + 1 := State.wrap_succ hs hv
  refine ⟨hv, ?_, ⟨by omega, by omega, ?_⟩, hw⟩
  · have := h2 0 (by simp)
    simpa using this
  · intro k hk
    have := h2 (k + 1) (by simpa using hk)
    rw [hw, show (a + 1).toNat + k = a.toNat + (k + 1) by omega]
    simpa using this

/-- Words that stand at XP are what the next fetches yield. -/
theorem State.codeWords_hasWords (ws : List Int) (s : State) (n : Nat) (hs : s.params.legal)
    (h : s.hasWords (s.reg .xp) ws) (hn : ws.length ≤ n) :
    State.codeWords n s = ws ++ State.codeWords (n - ws.length) (s.advance ws.length) := by
  induction ws generalizing s n with
  | nil =>
    have hx : isWord s.params (s.reg .xp) := isWord_of_address hs h.1 (by simpa using h.2.1)
    simp [State.advance_zero hx]
  | cons w ws ih =>
    obtain ⟨hv, hw, hws, -⟩ := State.hasWords_cons hs h
    obtain ⟨m, rfl⟩ : ∃ m, n = m + 1 := ⟨n - 1, by simp at hn; omega⟩
    have hm : ws.length ≤ m := by simpa using hn
    have h1 := ih (s.advance 1) m hs (by rw [State.reg_advance_xp]; exact hws) hm
    rw [State.codeWords_valid hv, h1, ← hw, State.advance_advance]
    simp only [List.length_cons, List.cons_append, Nat.add_sub_add_right, Nat.add_comm 1]

/-- The block at XP and the Words after it, at the count the machine uses. -/
theorem State.codeWords_memSize {s : State} {ws : List Int} (hs : s.params.legal) (h : s.hasWords (s.reg .xp) ws) :
    State.codeWords s.params.memSize s =
      ws ++ State.codeWords (s.params.memSize - ws.length) (s.advance ws.length) :=
  State.codeWords_hasWords ws s _ hs h (by have := h.1; have := h.2.1; omega)

/-- At the end of memory the block at XP is all there is. -/
theorem State.codeWords_last {s : State} {ws : List Int} (hs : s.params.legal) (h : s.hasWords (s.reg .xp) ws)
    (he : s.reg .xp + ws.length = s.params.memSize) : State.codeWords s.params.memSize s = ws := by
  have hx : (s.advance ws.length).reg .xp = s.params.memSize := by
    rw [State.reg_advance_xp, he]
    exact wrap_of_isWord (isWord_of_address hs (by omega) (by omega))
  rw [State.codeWords_memSize hs h, State.codeWords_invalid, List.append_nil]
  intro hv
  have := hv.2
  simp only [State.params_advance] at this
  omega

theorem State.hasWords_snapshot {s : State} {a : Int} {ws : List Int} : s.snapshot.hasWords a ws ↔ s.hasWords a ws :=
  Iff.rfl

/-! ### Traps -/

/-- Everything trap entry does (R204, R206). -/
theorem State.trapEntry_plainTrap (s : State) : PlainTrap s s.trapEntry := by
  refine ⟨by simp [State.trapEntry], by simp [State.trapEntry], rfl, ?_, fun _ => rfl, rfl, rfl, rfl⟩
  intro r hr
  simp only [List.mem_cons, List.not_mem_nil, or_false, not_or] at hr
  simp [State.trapEntry, hr.1, hr.2]

/-- Everything an unknown-opcode fault does (R202). -/
theorem State.raiseFault_unknownOpcode (s : State) : PlainTrap s (s.raiseFault .unknownOpcode) :=
  s.trapEntry_plainTrap

/-- Everything an address fault does (R201). -/
theorem State.raiseFault_invalidAddress (s : State) : AddressTrap s (s.raiseFault .invalidAddress) := by
  obtain ⟨h1, h2, h3, h4, h5, h6⟩ := (s.setInvalidAddress true).trapEntry_plainTrap
  exact ⟨h1, h2, h3, h4, h5, h6⟩

/-- What any fault leaves alone, and the registers it writes. -/
theorem State.raiseFault_frame (s : State) (c : TrapCause) :
    (s.raiseFault c).reg .eip = s.reg .ip ∧ (s.raiseFault c).reg .xp = s.reg .exp ∧
    SameRegsExcept [.eip, .xp] s (s.raiseFault c) ∧ (s.raiseFault c).mem = s.mem ∧ SameRest s (s.raiseFault c) ∧
    (s.raiseFault c).flags.exception = true ∧ (s.raiseFault c).flags.halt = s.flags.halt ∧
    (s.raiseFault c).flags.interrupt = s.flags.interrupt ∧
    (s.flags.invalidAddress = true → (s.raiseFault c).flags.invalidAddress = true) ∧
    (s.raiseFault c).flags.zero = s.flags.zero ∧ (s.raiseFault c).flags.equal = s.flags.equal ∧
    (s.raiseFault c).flags.greater = s.flags.greater ∧ (s.raiseFault c).flags.less = s.flags.less := by
  cases c with
  | invalidAddress =>
    obtain ⟨h1, h2, h3, h4, -, h6⟩ := s.raiseFault_invalidAddress
    exact ⟨h1, h2, h4, rfl, h6, rfl, rfl, rfl, fun _ => rfl, rfl, rfl, rfl, rfl⟩
  | unknownOpcode =>
    obtain ⟨h1, h2, h3, h4, -, h6⟩ := s.raiseFault_unknownOpcode
    exact ⟨h1, h2, h4, rfl, h6, rfl, rfl, rfl, fun h => h, rfl, rfl, rfl, rfl⟩

/-- Everything the return from a trap does (R208). -/
theorem State.trapReturn_frame (s : State) :
    s.trapReturn.reg .xp = s.reg .eip ∧ s.trapReturn.flags = { s.flags with exception := false } ∧
    SameRegsExcept [.xp] s s.trapReturn ∧ s.trapReturn.mem = s.mem ∧ SameRest s s.trapReturn := by
  refine ⟨by simp [State.trapReturn], rfl, ?_, rfl, rfl, rfl, rfl⟩
  intro r hr
  simp only [List.mem_cons, List.not_mem_nil, or_false] at hr
  simp [State.trapReturn, hr]

/-! ### Services and phase 4 -/

/-- `emitAll` appends and does nothing else. -/
theorem State.emitAll_eq (ws : List Int) (s : State) : s.emitAll ws = { s with out := s.out ++ ws } := by
  induction ws generalizing s with
  | nil => simp [State.emitAll]
  | cons w ws ih =>
    have h : s.emitAll (w :: ws) = (s.emit w).emitAll ws := rfl
    rw [h, ih]
    simp [State.emit]

/-- What print-string can do: emit some Words, and at its end stop or raise an address fault. -/
theorem State.printString_cases (n : Nat) (a : Int) (s : State) :
    ∃ ws, State.printString n a s = s.emitAll ws ∨
      State.printString n a s = (s.emitAll ws).raiseFault .invalidAddress := by
  induction n generalizing a s with
  | zero => exact ⟨[], .inr rfl⟩
  | succ n ih =>
    by_cases hv : s.valid a
    · simp only [State.printString, State.memRead_valid hv]
      split
      · exact ⟨[], .inl rfl⟩
      · obtain ⟨ws, h⟩ := ih (wrap s.params (a + 1)) (s.emit (s.cell a.toNat))
        exact ⟨s.cell a.toNat :: ws, h⟩
    · exact ⟨[], .inr (by simp only [State.printString, State.memRead_invalid hv]; rfl)⟩

/-- What a service can do: append some Words to `out`, and at its end stop or raise an address fault. -/
theorem State.serve_cases (s : State) (id p : Int) :
    ∃ ws, s.serve id p = s.emitAll ws ∨ s.serve id p = (s.emitAll ws).raiseFault .invalidAddress := by
  simp only [State.serve]
  split
  · exact ⟨_, .inl rfl⟩
  · exact ⟨[p], .inl rfl⟩
  · exact State.printString_cases _ _ _
  · exact ⟨[], .inl rfl⟩

/-- print-string on a terminated string. -/
theorem State.printString_terminated (text : List Int) (a : Int) (s : State) (n : Nat) (hs : s.params.legal)
    (hc : ∀ c ∈ text, c ≠ 0) (h : s.hasWords a (text ++ [0])) (hn : text.length < n) :
    State.printString n a s = s.emitAll text := by
  induction text generalizing a s n with
  | nil =>
    obtain ⟨hv, hw, -⟩ := State.hasWords_cons hs h
    obtain ⟨m, rfl⟩ : ∃ m, n = m + 1 := ⟨n - 1, by simp at hn; omega⟩
    simp only [State.printString, State.memRead_valid hv, ← hw, if_true]
    rfl
  | cons w text ih =>
    obtain ⟨hv, hw, hws, -⟩ := State.hasWords_cons hs h
    obtain ⟨m, rfl⟩ : ∃ m, n = m + 1 := ⟨n - 1, by omega⟩
    have hw0 : w ≠ 0 := hc w (by simp)
    simp only [State.printString, State.memRead_valid hv, ← hw, if_neg hw0]
    exact ih (wrap s.params (a + 1)) (s.emit w) m hs (fun c h => hc c (by simp [h])) hws (by simpa using hn)

/-- print-string on a string that runs to the end of memory. -/
theorem State.printString_unterminated (text : List Int) (a : Int) (s : State) (n : Nat) (hs : s.params.legal)
    (hc : ∀ c ∈ text, c ≠ 0) (h : s.hasWords a text) (he : a + text.length = s.params.memSize) (hn : text.length < n) :
    State.printString n a s = (s.emitAll text).raiseFault .invalidAddress := by
  induction text generalizing a s n with
  | nil =>
    obtain ⟨m, rfl⟩ : ∃ m, n = m + 1 := ⟨n - 1, by simp at hn; omega⟩
    have hv : ¬ s.valid a := by
      intro hv
      have := hv.2
      simp at he
      omega
    simp only [State.printString, State.memRead_invalid hv]
    rfl
  | cons w text ih =>
    obtain ⟨hv, hw, hws, -⟩ := State.hasWords_cons hs h
    obtain ⟨m, rfl⟩ : ∃ m, n = m + 1 := ⟨n - 1, by omega⟩
    have hw0 : w ≠ 0 := hc w (by simp)
    have ha : wrap s.params (a + 1) = a + 1 := State.wrap_succ hs hv
    simp only [State.printString, State.memRead_valid hv, ← hw, if_neg hw0]
    refine ih (wrap s.params (a + 1)) (s.emit w) m hs (fun c h => hc c (by simp [h])) hws ?_ (by simpa using hn)
    rw [ha]
    simp only [State.params_emit]
    simp at he
    omega

/-- The count of print-string never runs out: one more read changes nothing. -/
theorem printString_fuel (n : Nat) (a : Int) (s : State) (hs : s.params.legal)
    (hn : s.valid a → (s.params.memSize : Int) - a < n) (h0 : 0 < n) :
    State.printString (n + 1) a s = State.printString n a s := by
  induction n generalizing a s with
  | zero => omega
  | succ n ih =>
    by_cases hv : s.valid a
    · have hlt := hn hv
      have ha : wrap s.params (a + 1) = a + 1 := State.wrap_succ hs hv
      have hrec := ih (wrap s.params (a + 1)) (s.emit (s.cell a.toNat)) hs
        (by intro _; simp only [State.params_emit]; push_cast at hlt; omega)
        (by have := hv.2; push_cast at hlt; omega)
      rw [State.printString, State.printString, State.memRead_valid hv]
      simp only
      split
      · rfl
      · exact hrec
    · simp only [State.printString, State.memRead_invalid hv]

/-- Phase 4 with no request pending does nothing. -/
theorem State.interruptPhase_idle {s : State} (h : s.flags.interrupt = false) : s.interruptPhase = s := by
  simp [State.interruptPhase, h]

/-- What phase 4 can do. -/
theorem State.interruptPhase_cases (s : State) :
    (s.flags.interrupt = false ∧ s.interruptPhase = s) ∨
    (s.flags.interrupt = true ∧ ∃ ws, s.interruptPhase = (s.emitAll ws).setInterrupt false ∨
      s.interruptPhase = ((s.emitAll ws).raiseFault .invalidAddress).setInterrupt false) := by
  cases h : s.flags.interrupt with
  | false => exact .inl ⟨rfl, State.interruptPhase_idle h⟩
  | true =>
    refine .inr ⟨rfl, ?_⟩
    obtain ⟨ws, hw⟩ := s.serve_cases s.intid (s.reg parameterReg)
    refine ⟨ws, ?_⟩
    rcases hw with hw | hw
    · exact .inl (by simp [State.interruptPhase, h, hw])
    · exact .inr (by simp [State.interruptPhase, h, hw])

/-- What phase 4 leaves alone, whatever it does. -/
theorem State.interruptPhase_frame (s : State) :
    SameRegsExcept [.eip, .xp] s s.interruptPhase ∧ s.interruptPhase.mem = s.mem ∧
    s.interruptPhase.intid = s.intid ∧ s.interruptPhase.params = s.params ∧
    (∃ more, s.interruptPhase.out = s.out ++ more) ∧ s.interruptPhase.flags.interrupt = false ∧
    s.interruptPhase.flags.halt = s.flags.halt ∧
    (s.flags.invalidAddress = true → s.interruptPhase.flags.invalidAddress = true) ∧
    s.interruptPhase.flags.zero = s.flags.zero ∧ s.interruptPhase.flags.equal = s.flags.equal ∧
    s.interruptPhase.flags.greater = s.flags.greater ∧ s.interruptPhase.flags.less = s.flags.less := by
  rcases s.interruptPhase_cases with ⟨hi, h⟩ | ⟨-, ws, h | h⟩
  · rw [h]
    exact ⟨fun _ _ => rfl, rfl, rfl, rfl, ⟨[], by simp⟩, hi, rfl, id, rfl, rfl, rfl, rfl⟩
  · rw [h, State.emitAll_eq]
    exact ⟨fun _ _ => rfl, rfl, rfl, rfl, ⟨ws, rfl⟩, rfl, rfl, id, rfl, rfl, rfl, rfl⟩
  · obtain ⟨-, -, hf, -⟩ := (s.emitAll ws).raiseFault_frame .invalidAddress
    rw [h]
    rw [State.emitAll_eq] at hf ⊢
    exact ⟨hf, rfl, rfl, rfl, ⟨ws, rfl⟩, rfl, rfl, fun _ => rfl, rfl, rfl, rfl, rfl⟩

end Sys2Proof.Machine
end

