-- ==== Sys2Proof/Laws/PerInstr.lean ====
section
/-! SUPPORT. The families of lemmas that hold of every instruction of the syntax, one lemma per constructor. -/

namespace Sys2Proof.Laws

/-- The first Word of an instruction is its opcode number, a row of the opcode map (spec/30_encoding.md rules R90, R100), and its
operand Words are those of its operands in written order. -/
def OpcodeWord.Statement (i : Instr) : Prop :=
  (shapeOf (opcodeOf i)).isSome = true ∧ (encode i).head? = some (opcodeOf i) ∧
  (encode i).tail = i.operands.flatMap encodeOperand

theorem OpcodeWord.halt : OpcodeWord.Statement .halt := ⟨rfl, rfl, rfl⟩
theorem OpcodeWord.int (service : Int) : OpcodeWord.Statement (.int service) := ⟨rfl, rfl, rfl⟩
theorem OpcodeWord.noop : OpcodeWord.Statement .noop := ⟨rfl, rfl, rfl⟩
theorem OpcodeWord.set (rd : Reg) (v : Int) : OpcodeWord.Statement (.set rd v) := ⟨rfl, rfl, rfl⟩
theorem OpcodeWord.load (rd : Reg) (a : Int) : OpcodeWord.Statement (.load rd a) := ⟨rfl, rfl, rfl⟩
theorem OpcodeWord.store (rs : Reg) (a : Int) : OpcodeWord.Statement (.store rs a) := ⟨rfl, rfl, rfl⟩
theorem OpcodeWord.move (rd rs : Reg) : OpcodeWord.Statement (.move rd rs) := ⟨rfl, rfl, rfl⟩
theorem OpcodeWord.push (rs : Reg) : OpcodeWord.Statement (.push rs) := ⟨rfl, rfl, rfl⟩
theorem OpcodeWord.pop (rd : Reg) : OpcodeWord.Statement (.pop rd) := ⟨rfl, rfl, rfl⟩
theorem OpcodeWord.inc (r : Reg) : OpcodeWord.Statement (.inc r) := ⟨rfl, rfl, rfl⟩
theorem OpcodeWord.dec (r : Reg) : OpcodeWord.Statement (.dec r) := ⟨rfl, rfl, rfl⟩
theorem OpcodeWord.cstr (text : List Int) : OpcodeWord.Statement (.cstr text) := ⟨rfl, rfl, rfl⟩
theorem OpcodeWord.test (ra rb : Reg) : OpcodeWord.Statement (.test ra rb) := ⟨rfl, rfl, rfl⟩
theorem OpcodeWord.jump (a : Int) : OpcodeWord.Statement (.jump a) := ⟨rfl, rfl, rfl⟩
theorem OpcodeWord.jz (a : Int) : OpcodeWord.Statement (.jz a) := ⟨rfl, rfl, rfl⟩
theorem OpcodeWord.jnz (a : Int) : OpcodeWord.Statement (.jnz a) := ⟨rfl, rfl, rfl⟩
theorem OpcodeWord.je (a : Int) : OpcodeWord.Statement (.je a) := ⟨rfl, rfl, rfl⟩
theorem OpcodeWord.jne (a : Int) : OpcodeWord.Statement (.jne a) := ⟨rfl, rfl, rfl⟩
theorem OpcodeWord.call (a : Int) : OpcodeWord.Statement (.call a) := ⟨rfl, rfl, rfl⟩
theorem OpcodeWord.ret : OpcodeWord.Statement .ret := ⟨rfl, rfl, rfl⟩
theorem OpcodeWord.settrap (a : Int) : OpcodeWord.Statement (.settrap a) := ⟨rfl, rfl, rfl⟩
theorem OpcodeWord.raise : OpcodeWord.Statement .raise := ⟨rfl, rfl, rfl⟩
theorem OpcodeWord.resume : OpcodeWord.Statement .resume := ⟨rfl, rfl, rfl⟩

end Sys2Proof.Laws
end

