-- ==== Sys2Proof/Laws/Step.lean ====
section
/-! SUPPORT. What `exec` and `step` can answer: `exec` always gives a next state, and the cases of a step. -/

namespace Sys2Proof.Machine

/-- Every meaning answers a next state (R134: no instruction stops the machine by a fault). -/
theorem exec_next (i : Instr) (s : State) : ∃ t, exec i s = .next t := by
  cases i with
  | load rd a =>
    simp only [exec, execLoad]
    split <;> exact ⟨_, rfl⟩
  | store rs a =>
    simp only [exec, execStore]
    split <;> exact ⟨_, rfl⟩
  | push rs =>
    simp only [exec, execPush]
    split <;> exact ⟨_, rfl⟩
  | pop rd =>
    simp only [exec, execPop]
    split <;> exact ⟨_, rfl⟩
  | _ => exact ⟨_, rfl⟩

/-- The cases of a step that answers a next state: the fetches succeed, and `exec` and phase 4 follow; or they fault, and trap
entry and phase 4 follow. -/
theorem step_cases {s t : State} (h : step s = .next t) :
    s.flags.halt = false ∧
    ((∃ i rest u, decode (State.codeWords s.params.memSize s.snapshot) = .ok (i, rest) ∧
        exec i (s.snapshot.advance i.size) = .next u ∧ t = u.interruptPhase) ∨
      (∃ e, decode (State.codeWords s.params.memSize s.snapshot) = .error e ∧
        t = (s.snapshot.raiseFault (causeOf e)).interruptPhase)) := by
  unfold step at h
  split at h
  · cases h
  · next hh =>
    refine ⟨by simpa using hh, ?_⟩
    cases hd : decode (State.codeWords s.params.memSize s.snapshot) with
    | error e =>
      have hf : s.snapshot.fetchInstr = .error (causeOf e) := by
        simp only [State.fetchInstr, State.params_snapshot, hd]
      rw [hf] at h
      cases h
      exact .inr ⟨e, rfl, rfl⟩
    | ok p =>
      obtain ⟨i, rest⟩ := p
      have hf : s.snapshot.fetchInstr = .ok (i, s.snapshot.advance i.size) := by
        simp only [State.fetchInstr, State.params_snapshot, hd]
      obtain ⟨u, hu⟩ := exec_next i (s.snapshot.advance i.size)
      rw [hf] at h
      simp only [hu, finishStep] at h
      cases h
      exact .inl ⟨i, rest, u, rfl, hu, rfl⟩

/-- `running` in terms of the decoder. -/
theorem State.running_iff (s : State) (i : Instr) :
    s.running i ↔ ∃ rest, decode (State.codeWords s.params.memSize s.snapshot) = .ok (i, rest) := by
  unfold State.running State.fetchInstr
  rw [State.params_snapshot]
  constructor
  · rintro ⟨s', h⟩
    split at h
    · next j rest hd => cases h; exact ⟨rest, hd⟩
    · cases h
  · rintro ⟨rest, hd⟩
    exact ⟨_, by rw [hd]⟩

end Sys2Proof.Machine
end

