-- ==== Sys2Proof/Laws/Words.lean ====
section
/-! SUPPORT. The range of a Word (spec/10_state.md rule R20) through the shared operations: each keeps a Word in every place that
holds one. -/

namespace Sys2Proof.Machine

/-- A cell is listed, or reads as an unlisted one. -/
theorem Memory.read_mem_or_absent (m : Memory) (a : Nat) : (a, m.read a) ∈ m ∨ m.read a = Memory.absent := by
  induction m with
  | nil => exact .inr rfl
  | cons c m ih =>
    obtain ⟨k, v⟩ := c
    by_cases hk : k = a
    · subst hk
      exact .inl (by simp [Memory.read])
    · simp only [Memory.read, hk, if_false]
      rcases ih with h | h
      · exact .inl (by simp [h])
      · exact .inr h

/-- Every cell holds a Word. -/
theorem State.isWord_cell {s : State} (hp : s.params.legal) (h : s.wordsOk) (k : Nat) : isWord s.params (s.cell k) := by
  rcases Memory.read_mem_or_absent s.mem k with hm | hm
  · exact h.2.1 _ hm
  · rw [State.cell, hm]
    exact isWord_of_small hp (by decide) (by decide)

/-- A register write of a Word keeps the Words. -/
theorem State.wordsOk_setReg {s : State} {v : Int} (r : Reg) (h : s.wordsOk) (hv : isWord s.params v) :
    (s.setReg r v).wordsOk := by
  refine ⟨?_, h.2⟩
  intro q
  by_cases hq : q = r
  · subst hq
    rw [State.reg_setReg_same]
    exact hv
  · rw [State.reg_setReg_ne _ _ hq]
    exact h.1 q

/-- A write of a Word to a cell keeps the Words. -/
theorem State.wordsOk_setCell {s : State} {v : Int} (k : Nat) (h : s.wordsOk) (hv : isWord s.params v) :
    (s.setCell k v).wordsOk := by
  refine ⟨h.1, ?_, h.2.2⟩
  intro c hc
  rcases Memory.write_fst_mem _ _ _ c hc with ⟨rfl, -⟩ | hc
  · exact hv
  · exact h.2.1 c hc

/-- Flags hold no Words. -/
theorem State.wordsOk_setFlags {s : State} (f : Flags) (h : s.wordsOk) : (s.setFlags f).wordsOk := h

/-- Output of Words keeps the Words. -/
theorem State.wordsOk_emitAll {s : State} {ws : List Int} (h : s.wordsOk) (hw : ∀ w ∈ ws, isWord s.params w) :
    (s.emitAll ws).wordsOk := by
  rw [State.emitAll_eq]
  refine ⟨h.1, h.2.1, h.2.2.1, ?_⟩
  intro c hc
  rcases List.mem_append.1 hc with hc | hc
  · exact h.2.2.2 c hc
  · exact hw c hc

/-- Snapshot and advance keep the Words. -/
theorem State.wordsOk_snapshot_advance {s : State} (n : Nat) (h : s.wordsOk) : (s.snapshot.advance n).wordsOk :=
  State.wordsOk_setReg .xp (State.wordsOk_setReg .ip h (h.1 .xp)) (isWord_wrap _ _)

/-- A fault keeps the Words. -/
theorem State.wordsOk_raiseFault {s : State} (c : TrapCause) (h : s.wordsOk) : (s.raiseFault c).wordsOk := by
  have key : ∀ u : State, u.wordsOk → u.trapEntry.wordsOk := by
    intro u hu
    have h1 := State.wordsOk_setReg .eip hu (hu.1 .ip)
    exact State.wordsOk_setFlags _ (State.wordsOk_setReg .xp h1 (h1.1 .exp))
  cases c with
  | invalidAddress => exact key _ (State.wordsOk_setFlags _ h)
  | unknownOpcode => exact key _ h

/-- The fetches yield Words. -/
theorem State.isWord_codeWords (n : Nat) {s : State} (hp : s.params.legal) (h : s.wordsOk) :
    ∀ w ∈ State.codeWords n s, isWord s.params w := by
  induction n generalizing s with
  | zero => simp [State.codeWords]
  | succ n ih =>
    by_cases hv : s.valid (s.reg .xp)
    · rw [State.codeWords_valid hv]
      intro w hw
      rcases List.mem_cons.1 hw with rfl | hw
      · exact State.isWord_cell hp h _
      · exact ih (s := s.advance 1) hp (State.wordsOk_setReg .xp h (isWord_wrap _ _)) w hw
    · rw [State.codeWords_invalid hv]
      simp

/-- The digits that print-integer emits are Words. -/
theorem isWord_decimalDigits {p : Params} (hp : p.legal) (k m : Nat) : ∀ w ∈ decimalDigits k m, isWord p w := by
  have hd : ∀ d, d < 10 → isWord p (digitWord d) := by
    intro d hd
    exact isWord_of_small hp (by simp only [digitWord]; omega) (by simp only [digitWord]; omega)
  induction k generalizing m with
  | zero => simp [decimalDigits]
  | succ k ih =>
    simp only [decimalDigits]
    split
    · next h =>
      intro w hw
      rw [List.mem_singleton.1 hw]
      exact hd m h
    · intro w hw
      rcases List.mem_append.1 hw with hw | hw
      · exact ih _ w hw
      · rw [List.mem_singleton.1 hw]
        exact hd _ (Nat.mod_lt _ (by decide))

/-- The text of print-integer is Words. -/
theorem isWord_integerText {p : Params} (hp : p.legal) (v : Int) : ∀ w ∈ integerText p v, isWord p w := by
  intro w hw
  rcases List.mem_append.1 hw with hw | hw
  · split at hw
    · rw [List.mem_singleton.1 hw]
      exact isWord_of_small hp (by decide) (by decide)
    · cases hw
  · exact isWord_decimalDigits hp _ _ w hw

/-- print-string keeps the Words. -/
theorem State.wordsOk_printString (n : Nat) (a : Int) {s : State} (hp : s.params.legal) (h : s.wordsOk) :
    (State.printString n a s).wordsOk := by
  induction n generalizing a s with
  | zero => exact State.wordsOk_raiseFault _ h
  | succ n ih =>
    by_cases hv : s.valid a
    · simp only [State.printString, State.memRead_valid hv]
      split
      · exact h
      · have he := State.wordsOk_emitAll (ws := [s.cell a.toNat]) h (by simpa using State.isWord_cell hp h _)
        exact ih _ (s := s.emit (s.cell a.toNat)) hp he
    · simp only [State.printString, State.memRead_invalid hv]
      exact State.wordsOk_raiseFault _ h

/-- Phase 4 keeps the Words. -/
theorem State.wordsOk_interruptPhase {s : State} (hp : s.params.legal) (h : s.wordsOk) : s.interruptPhase.wordsOk := by
  have hserve : (s.serve s.intid (s.reg parameterReg)).wordsOk := by
    simp only [State.serve]
    split
    · exact State.wordsOk_emitAll h (isWord_integerText hp _)
    · exact State.wordsOk_emitAll (ws := [s.reg parameterReg]) h (by simpa using h.1 parameterReg)
    · exact State.wordsOk_printString _ _ hp h
    · exact h
  simp only [State.interruptPhase]
  split
  · exact State.wordsOk_setFlags _ hserve
  · exact h

end Sys2Proof.Machine
end

