-- ==== Sys2Proof/Tests/Slice0.lean ====
section
/-! SUPPORT. Tests of the model on the vectors of spec/95_test_vectors.md, and for each statement with hypotheses a concrete
state and operands that meet them. -/

namespace Sys2Proof.Tests

open Sys2Proof Sys2Proof.Machine

/-! ### Helpers -/

/-- The start state of a vector (spec/95_test_vectors.md, conventions): the Words `code` at `x[XP] = xp`, `x[SP] = 255`, and
the trap target 40. -/
def machine (xp : Int) (code : List Int) : State :=
  State.placeWords code xp.toNat ((((State.resetOf Params.reference).setReg .xp xp).setReg .sp 255).setReg .exp 40)

/-- The state after one step, if there is one. -/
def after (s : State) : Option State :=
  match step s with
  | .next t => some t
  | .fault _ => none
  | .refused _ => none

/-- `s` after its snapshot and the fetch of `n` Words: what an instruction of `n` Words leaves if it does nothing else. -/
def passed (n : Nat) (s : State) : State := s.snapshot.advance n

/-- `s` after the trap entry of its next instruction, with no flag but Exception. -/
def trapped (s : State) : State :=
  ((s.snapshot.setReg .eip (s.reg .xp)).setReg .xp (s.reg .exp)).setException true

/-- The instruction a run of Words decodes to, and how many Words are left. -/
def decoded (ws : List Int) : Option (Instr × List Int) := (decode ws).toOption

/-! ### Well-formedness -/

/-- A string operand cannot hold its own terminator, nor anything that is no Word (R99): the check refuses it. -/
theorem test_wellFormed_refuses_bad_characters :
    (Instr.cstr [104, 0]).wellFormed Params.reference = false ∧
    (Instr.cstr [104, 2147483648]).wellFormed Params.reference = false := by decide

/-- An immediate or address that is no Word of 32 bits is refused, at both ends of the range, and 128 in Words of 8 bits. -/
theorem test_wellFormed_refuses_wide_operands :
    (Instr.set .r0 2147483648).wellFormed Params.reference = false ∧
    (Instr.jump (-2147483649)).wellFormed Params.reference = false ∧
    (Instr.set .r0 128).wellFormed { wordBits := 8, memSize := 100 } = false := by decide

theorem test_wellFormed_accepts :
    (Instr.cstr [104, 105]).wellFormed Params.reference = true ∧
    (Instr.set .r0 2147483647).wellFormed Params.reference = true ∧
    (Instr.jump (-2147483648)).wellFormed Params.reference = true := by decide

/-! ### Decoding: the Words of section 5 of spec/95_test_vectors.md, one row for each constructor -/

theorem test_decode_halt : decoded [0] = some (.halt, []) := by decide
theorem test_decode_int : decoded [1, 2] = some (.int 2, []) := by decide
theorem test_decode_noop : decoded [2] = some (.noop, []) := by decide
theorem test_decode_set : decoded [3, 13, -1] = some (.set .eip (-1), []) := by decide
theorem test_decode_load : decoded [4, 8, 100] = some (.load .xp 100, []) := by decide
theorem test_decode_store : decoded [5, 9, 100] = some (.store .ip 100, []) := by decide
theorem test_decode_move : decoded [6, 10, 12] = some (.move .sp .exp, []) := by decide
theorem test_decode_push : decoded [7, 11] = some (.push .rp, []) := by decide
theorem test_decode_pop : decoded [8, 7] = some (.pop .r7, []) := by decide
theorem test_decode_inc : decoded [9, 13] = some (.inc .eip, []) := by decide
theorem test_decode_dec : decoded [10, 0] = some (.dec .r0, []) := by decide
theorem test_decode_cstr : decoded [11, 65, 0] = some (.cstr [65], []) := by decide
theorem test_decode_test : decoded [12, 0, 1] = some (.test .r0 .r1, []) := by decide
theorem test_decode_jump : decoded [13, 10] = some (.jump 10, []) := by decide
theorem test_decode_jz : decoded [14, 6] = some (.jz 6, []) := by decide
theorem test_decode_jnz : decoded [15, 12] = some (.jnz 12, []) := by decide
theorem test_decode_je : decoded [16, 40] = some (.je 40, []) := by decide
theorem test_decode_jne : decoded [17, 40] = some (.jne 40, []) := by decide
theorem test_decode_call : decoded [18, 6] = some (.call 6, []) := by decide
theorem test_decode_ret : decoded [19] = some (.ret, []) := by decide
theorem test_decode_settrap : decoded [20, 11] = some (.settrap 11, []) := by decide
theorem test_decode_raise : decoded [21] = some (.raise, []) := by decide
theorem test_decode_resume : decoded [22] = some (.resume, []) := by decide

/-- V16, V17, and the last two rows of the table: no instruction. -/
theorem test_decode_refuses :
    decoded [23] = none ∧ decoded [-1] = none ∧ decoded [1000] = none ∧ decoded [9, 14] = none ∧
    decoded [3, -1, 0] = none := by decide

/-- V5: registers r2 to r6 as the table of register indices (10_state.md R23) numbers them. -/
theorem test_decode_registers :
    decoded [4, 2, 100] = some (.load .r2 100, []) ∧ decoded [6, 4, 3] = some (.move .r4 .r3, []) ∧
    decoded [12, 5, 6] = some (.test .r5 .r6, []) := by decide

/-- The host's numbering: Word 0 in bits 31..0, Word 1 in bits 63..32; operand Words that the table gives no bits are 0. -/
theorem test_decodeTableWord :
    decodeTableWord 96 0x640000000800000004 = some (.load .xp 100) ∧
    decodeTableWord 32 0x00000003 = some (.set .r0 0) ∧ decodeTableWord 32 0x00000017 = none := by decide

/-- `withFetchWord` places that instruction where the next step fetches it, even with Halt set. -/
theorem test_withFetchWord :
    after ((State.reset.setHalt true).withFetchWord 96 0x640000000300000003) =
      some ((passed 3 (State.reset.withFetchWord 96 0x640000000300000003)).setReg .r3 100) := by decide

/-! ### One step, on the vectors of section 4 of spec/95_test_vectors.md (EXP is 40 throughout) -/

/-- V11. -/
theorem test_halt : after (machine 12 [0]) = some ((passed 1 (machine 12 [0])).setHalt true) := by decide

/-- V12. -/
theorem test_noop : after (machine 6 [2]) = some (passed 1 (machine 6 [2])) := by decide

/-- V13. -/
theorem test_cstr : after (machine 0 [11, 104, 105, 0]) = some (passed 4 (machine 0 [11, 104, 105, 0])) := by decide

/-- V15: the string runs off the end of memory. -/
theorem test_cstr_cut_off :
    after (machine 253 [11, 65, 66]) = some ((trapped (machine 253 [11, 65, 66])).setInvalidAddress true) := by decide

/-- V16, V17: an unknown opcode sets no flag but Exception. -/
theorem test_unknown_opcode :
    after (machine 5 [23]) = some (trapped (machine 5 [23])) ∧ after (machine 5 [-1]) = some (trapped (machine 5 [-1])) := by
  decide

/-- V18, V19: the opcode fetch out of bounds. -/
theorem test_fetch_out_of_bounds :
    after (machine 256 []) = some ((trapped (machine 256 [])).setInvalidAddress true) ∧
    after (machine (-1) []) = some ((trapped (machine (-1) [])).setInvalidAddress true) := by decide

/-- V24: a bad index and a bad address together, the index met first. -/
theorem test_bad_index_before_bad_address :
    after (machine 2 [4, 14, 256]) = some (trapped (machine 2 [4, 14, 256])) := by decide

/-- V26. -/
theorem test_set : after (machine 0 [3, 3, -1]) = some ((passed 3 (machine 0 [3, 3, -1])).setReg .r3 (-1)) := by decide

/-- V20: the immediate Word would lie at 256. -/
theorem test_set_cut_off :
    after ((machine 254 [3, 0]).setReg .r0 77) =
      some ((trapped ((machine 254 [3, 0]).setReg .r0 77)).setInvalidAddress true) := by decide

/-- V32: the last valid address. -/
theorem test_load :
    after ((machine 2 [4, 1, 255]).setCell 255 (-9)) =
      some ((passed 3 ((machine 2 [4, 1, 255]).setCell 255 (-9))).setReg .r1 (-9)) := by decide

/-- V31: R1 keeps its value. -/
theorem test_load_negative_address :
    after ((machine 2 [4, 1, -1]).setReg .r1 77) =
      some ((trapped ((machine 2 [4, 1, -1]).setReg .r1 77)).setInvalidAddress true) := by decide

/-- V37: `store xp` stores the address after the instruction. -/
theorem test_store_xp : after (machine 17 [5, 8, 100]) = some ((passed 3 (machine 17 [5, 8, 100])).setCell 100 20) := by
  decide

/-- V36: no cell written. -/
theorem test_store_out_of_range :
    after ((machine 17 [5, 1, 256]).setReg .r1 6) =
      some ((trapped ((machine 17 [5, 1, 256]).setReg .r1 6)).setInvalidAddress true) := by decide

/-- V39. -/
theorem test_move :
    after ((machine 50 [6, 4, 3]).setReg .r3 9) =
      some ((passed 3 ((machine 50 [6, 4, 3]).setReg .r3 9)).setReg .r4 9) := by decide

/-- V41: `move xp, rp` acts as `ret`. -/
theorem test_move_xp :
    after ((machine 50 [6, 8, 11]).setReg .rp 5) =
      some ((passed 3 ((machine 50 [6, 8, 11]).setReg .rp 5)).setReg .xp 5) := by decide

/-- V44: `push sp` stores the old SP. -/
theorem test_push_sp :
    after ((machine 6 [7, 10]).setReg .sp 200) =
      some (((passed 2 ((machine 6 [7, 10]).setReg .sp 200)).setReg .sp 199).setCell 200 200) := by decide

/-- V47: SP not decremented, no cell written. -/
theorem test_push_overflow :
    after ((machine 6 [7, 0]).setReg .sp (-1)) =
      some ((trapped ((machine 6 [7, 0]).setReg .sp (-1))).setInvalidAddress true) := by decide

/-- V50: `pop sp` ends with the popped value. -/
theorem test_pop_sp :
    after (((machine 10 [8, 10]).setReg .sp 200).setCell 201 123) =
      some ((passed 2 (((machine 10 [8, 10]).setReg .sp 200).setCell 201 123)).setReg .sp 123) := by decide

/-- V49: SP stays at 256. -/
theorem test_pop_empty_stack :
    after ((machine 10 [8, 0]).setReg .r0 77) =
      some (((trapped ((machine 10 [8, 0]).setReg .r0 77)).setReg .sp 256).setInvalidAddress true) := by decide

/-- V55: wraps, no flag. -/
theorem test_inc_wraps :
    after ((machine 6 [9, 1]).setReg .r1 2147483647) =
      some ((passed 2 ((machine 6 [9, 1]).setReg .r1 2147483647)).setReg .r1 (-2147483648)) := by decide

/-- In Words of 8 bits the greatest is 127, and one more is -128 (R165 at `W = 8`). -/
theorem test_inc_wraps_at_eight_bits :
    (after (State.placeWords [9, 1] 6
      (((State.resetOf { wordBits := 8, memSize := 100 }).setReg .xp 6).setReg .r1 127))).map (·.reg .r1) = some (-128) := by
  decide

/-- V57: `inc xp` skips one Word. -/
theorem test_inc_xp : after (machine 6 [9, 8]) = some ((passed 2 (machine 6 [9, 8])).setReg .xp 9) := by decide

/-- V60: no flag. -/
theorem test_dec :
    after ((machine 10 [10, 0]).setReg .r0 1) = some ((passed 2 ((machine 10 [10, 0]).setReg .r0 1)).setReg .r0 0) := by
  decide

/-- V62. -/
theorem test_dec_wraps :
    after ((machine 10 [10, 0]).setReg .r0 (-2147483648)) =
      some ((passed 2 ((machine 10 [10, 0]).setReg .r0 (-2147483648))).setReg .r0 2147483647) := by decide

/-- V77: `test xp, ip` compares `A + 3` with `A`. -/
theorem test_test_xp_ip :
    (after (machine 6 [12, 8, 9])).map State.flags = some { State.reset.flags with greater := true } := by decide

/-- V76: Zero comes from the first operand and is rewritten. -/
theorem test_test_rewrites :
    (after (((machine 6 [12, 2, 2]).setReg .r2 9).setFlags { State.reset.flags with zero := true })).map State.flags =
      some { State.reset.flags with equal := true } := by decide

/-- V79. -/
theorem test_jump : after (machine 3 [13, 10]) = some ((passed 2 (machine 3 [13, 10])).setReg .xp 10) := by decide

/-- V83. -/
theorem test_jump_cut_off : after (machine 255 [13]) = some ((trapped (machine 255 [13])).setInvalidAddress true) := by
  decide

/-- V84, V92: only Zero matters. -/
theorem test_jz :
    (after ((machine 15 [14, 6]).setFlags { State.reset.flags with zero := true })).map (·.reg .xp) = some 6 ∧
    (after ((machine 15 [14, 6]).setFlags { State.reset.flags with equal := true, greater := true })).map (·.reg .xp) =
      some 17 := by decide

/-- V86, V87. -/
theorem test_jnz :
    (after (machine 9 [15, 12])).map (·.reg .xp) = some 12 ∧
    (after ((machine 9 [15, 12]).setFlags { State.reset.flags with zero := true })).map (·.reg .xp) = some 11 := by decide

/-- V88, V89. -/
theorem test_je :
    (after ((machine 20 [16, 40]).setFlags { State.reset.flags with equal := true })).map (·.reg .xp) = some 40 ∧
    (after (machine 20 [16, 40])).map (·.reg .xp) = some 22 := by decide

/-- V90, V91. -/
theorem test_jne :
    (after (machine 20 [17, 40])).map (·.reg .xp) = some 40 ∧
    (after ((machine 20 [17, 40]).setFlags { State.reset.flags with equal := true })).map (·.reg .xp) = some 22 := by decide

/-- V94: the old return address is lost. -/
theorem test_call :
    after ((machine 8 [18, 13]).setReg .rp 5) =
      some (((passed 2 ((machine 8 [18, 13]).setReg .rp 5)).setReg .rp 10).setReg .xp 13) := by decide

/-- V96. -/
theorem test_ret :
    after ((machine 15 [19]).setReg .rp 5) = some ((passed 1 ((machine 15 [19]).setReg .rp 5)).setReg .xp 5) := by decide

/-- V100: not checked. -/
theorem test_settrap : after (machine 0 [20, -5]) = some ((passed 2 (machine 0 [20, -5])).setReg .exp (-5)) := by decide

/-- V103: inside a handler EIP is overwritten. -/
theorem test_raise :
    after (((machine 6 [21]).setReg .eip 2).setException true) =
      some (trapped (((machine 6 [21]).setReg .eip 2).setException true)) := by decide

/-- V106: InvalidAddress is not cleared. -/
theorem test_resume :
    after ((((machine 6 [22]).setReg .eip 3).setException true).setInvalidAddress true) =
      some ((passed 1 (((machine 6 [22]).setReg .eip 3).setInvalidAddress true)).setReg .xp 3) := by decide

/-- V112: the most negative Word. -/
theorem test_int_print_integer :
    (after ((machine 17 [1, 0]).setReg .r0 (-2147483648))).map State.out =
      some [45, 50, 49, 52, 55, 52, 56, 51, 54, 52, 56] := by decide

/-- V117: both characters stay emitted, and the string runs off the end of memory. -/
theorem test_int_print_string :
    after ((((machine 17 [1, 2]).setReg .r0 254).setCell 254 65).setCell 255 66) =
      some ((((((trapped ((((machine 17 [1, 2]).setReg .r0 254).setCell 254 65).setCell 255 66)).setInvalidAddress true).emit
        65).emit 66)).setIntid 2) := by decide

/-! ### The host's operations: V122 to V126 -/

/-- V122. -/
theorem test_reset : (machine 17 [1, 2]).hostReset = State.reset := by decide

/-- V125: `continueExecution` straight after reset and a load. -/
theorem test_continue_after_load :
    (State.continueFor 3 (State.placeWords [3, 0, 9, 7, 0, 0] 0 State.reset)).map
      (fun t => (t.reg .r0, t.reg .xp, t.reg .ip, t.reg .sp, t.cell 0, t.flags.halt)) =
      some (9, 6, 5, -1, 9, true) := by decide

/-- U10, log entry 14: a start below 0, and an end before the start, are refused. -/
theorem test_readMemory_refuses :
    State.reset.hostReadMemory (-1) 0 = .error .readOutOfRange ∧ State.reset.hostReadMemory 0 (-1) = .error .readOutOfRange ∧
    State.reset.hostReadMemory 256 255 = .error .readOutOfRange := by decide

/-! ### States that meet the hypotheses of the statements -/

/-- The invariant, with the registers listed, so that it can be decided of a concrete state. -/
theorem inv_of {s : State}
    (h : s.params.legal ∧ s.memOk ∧ (∀ r ∈ regTable.map (·.2), isWord s.params (s.reg r)) ∧
      (∀ c ∈ s.mem, isWord s.params c.2) ∧ isWord s.params s.intid ∧ (∀ c ∈ s.out, isWord s.params c) ∧
      s.flags.interrupt = false ∧ s.flags.compareOk) : s.Inv :=
  ⟨h.1, h.2.1, ⟨fun r => h.2.2.1 r (by cases r <;> decide), h.2.2.2.1, h.2.2.2.2.1, h.2.2.2.2.2.1⟩, h.2.2.2.2.2.2⟩

theorem witness_DecodeEncodeRoundTrip :
    Params.reference.legal ∧ (Instr.cstr [104, 105]).wellFormed Params.reference = true ∧ (Instr.cstr []).wellFormed Params.reference = true ∧
    (Instr.set .eip (-1)).wellFormed Params.reference = true := by decide

theorem witness_EncodeDecodeRoundTrip :
    (∀ w ∈ ([11, 104, 105, 0, 7] : List Int), isWord Params.reference w) ∧
    decode [11, 104, 105, 0, 7] = .ok (.cstr [104, 105], [7]) := ⟨by decide, rfl⟩

/-- Both sides of the bounds of OpcodesAreZeroToTwentyTwo. -/
theorem witness_OpcodesAreZeroToTwentyTwo :
    decode [23] = .error (.unknownOpcode 23) ∧ decode [-1] = .error (.unknownOpcode (-1)) ∧
    decode [22] = .ok (.resume, []) ∧ decode [0] = .ok (.halt, []) := ⟨rfl, rfl, rfl, rfl⟩

/-- Both sides of the bounds of RegisterIndicesAreZeroToThirteen. -/
theorem witness_RegisterIndicesAreZeroToThirteen :
    NoRegister 14 ∧ NoRegister (-1) ∧ regOfWord 14 = none ∧ regOfWord (-1) = none ∧ regOfWord 13 = some .eip ∧
    regOfWord 0 = some .r0 := by decide

/-- Valid at 0 and 255, not valid at -1 and 256. -/
theorem witness_MemoryAccessIsBoundsChecked :
    (machine 0 [3, 0, 5]).mem.wf ∧ (machine 0 [3, 0, 5]).valid 0 ∧ (machine 0 [3, 0, 5]).valid 255 ∧
    ¬ (machine 0 [3, 0, 5]).valid (-1) ∧ ¬ (machine 0 [3, 0, 5]).valid 256 := by decide

theorem witness_FetchReadsAtXpAndAdvances :
    (machine 255 [2]).params.legal ∧ (machine 255 [2]).valid ((machine 255 [2]).reg .xp) ∧
    (machine 256 []).params.legal ∧ ¬ (machine 256 []).valid ((machine 256 []).reg .xp) ∧
    ¬ (machine (-1) []).valid ((machine (-1) []).reg .xp) := by decide

theorem witness_StepRunsTheDecodedInstruction :
    (machine 5 [3, 0, 9]).flags.halt = false ∧
    ((decode (State.codeWords (machine 5 [3, 0, 9]).params.memSize (machine 5 [3, 0, 9]).snapshot)).toOption.map (·.1)) =
      some (.set .r0 9) := by decide

/-- In the middle of memory, and as its last cell. -/
theorem witness_StepRunsTheEncodedInstruction :
    (machine 5 [11, 104, 105, 0]).atWords (encode (.cstr [104, 105])) ∧ (machine 255 [21]).atWords (encode .raise) := by
  and_intros <;> first | decide | exact fun r => by cases r <;> decide

theorem witness_RunningStepIsTotal : State.reset.flags.halt = false := by decide

theorem witness_HaltedMachineTakesNoStep : (State.reset.setHalt true).flags.halt = true := by decide

theorem witness_OpcodeFetchOutOfBoundsTraps :
    (machine 256 []).flags.halt = false ∧ (machine 256 []).Inv ∧ ¬ (machine 256 []).valid ((machine 256 []).reg .xp) ∧
    (machine (-1) []).flags.halt = false ∧ (machine (-1) []).Inv ∧ ¬ (machine (-1) []).valid ((machine (-1) []).reg .xp) := by
  and_intros <;> first | decide | exact fun r => by cases r <;> decide

theorem witness_UnknownOpcodeTraps :
    (machine 5 [23]).atWords [23] ∧ 22 < (23 : Int) ∧ (machine 5 [-1]).atWords [-1] ∧ (-1 : Int) < 0 := by
  and_intros <;> first | decide | exact fun r => by cases r <;> decide

/-- Cut off before the first operand Word, before the second, and inside a string. -/
theorem witness_InstructionCutOffByMemoryEndTraps :
    (machine 255 [3]).atLastWords ((encode (.set .r0 5)).take 1) ∧
    (machine 254 [3, 0]).atLastWords ((encode (.set .r0 5)).take 2) ∧
    (machine 253 [11, 65, 66]).atLastWords ((encode (.cstr [65, 66])).take 3) ∧
    (Instr.cstr [65, 66]).wellFormed Params.reference = true ∧ (Instr.set .r0 5).wellFormed Params.reference = true ∧
    2 < (encode (.set .r0 5)).length ∧ 3 < (encode (.cstr [65, 66])).length := by
  and_intros <;> first | decide | exact fun r => by cases r <;> decide

theorem witness_BadRegisterIndexTraps :
    NoRegister 14 ∧ NoRegister (-1) ∧ (machine 5 [3, 14]).atWords [3, 14] ∧ (machine 5 [12, -1]).atWords [12, -1] ∧
    (machine 5 [6, 4, 14]).atWords [6, wordOfReg .r4, 14] ∧ (machine 5 [12, 0, -1]).atWords [12, wordOfReg .r0, -1] := by
  and_intros <;> first | decide | exact fun r => by cases r <;> decide

theorem witness_StoredWordIsFetchedNext :
    (machine 255 [2]).mem.wf ∧ (machine 255 [2]).valid 255 ∧ (machine 255 [2]).reg .xp = 255 := by decide

theorem witness_ResetMeetsTheInvariant :
    Params.reference.legal ∧ Params.legal { wordBits := 8, memSize := 127 } ∧ Params.legal { wordBits := 8, memSize := 1 } ∧
    ¬ Params.legal { wordBits := 8, memSize := 128 } ∧ ¬ Params.legal { wordBits := 7, memSize := 1 } := by decide

/-- A step that executes an instruction, one that serves a request and one that traps, from states of the invariant. -/
theorem witness_StepKeepsTheInvariant :
    (machine 6 [7, 10]).Inv ∧ (∃ t, step (machine 6 [7, 10]) = .next t) ∧
    (machine 6 [1, 1]).Inv ∧ (∃ t, step (machine 6 [1, 1]) = .next t) ∧
    (machine 6 [23]).Inv ∧ (∃ t, step (machine 6 [23]) = .next t) :=
  ⟨inv_of (by decide), ⟨_, rfl⟩, inv_of (by decide), ⟨_, rfl⟩, inv_of (by decide), ⟨_, rfl⟩⟩

/-- A step that executes `int`, and one that starts with Interrupt set. -/
theorem witness_NoRequestOutlivesAStep :
    (∃ t, step (machine 6 [1, 1]) = .next t) ∧ (∃ t, step ((machine 6 [2]).setInterrupt true) = .next t) :=
  ⟨⟨_, rfl⟩, ⟨_, rfl⟩⟩

theorem witness_HostOperationsKeepTheInvariant :
    (machine 6 [2]).Inv ∧ (∃ t, (machine 6 [2]).hostLoad [7, 8, 9] 253 = .next t) ∧
    (∀ w ∈ ([7, 8, 9] : List Int), isWord (machine 6 [2]).params w) := ⟨inv_of (by decide), ⟨_, rfl⟩, by decide⟩

theorem witness_OnlyIntAddsOutput :
    (∃ t, step (machine 6 [2]) = .next t) ∧ (machine 6 [2]).flags.interrupt = false ∧
    (∀ v, ¬ (machine 6 [2]).running (.int v)) ∧ (∃ t, step (machine 6 [1, 1]) = .next t) := by
  refine ⟨⟨_, rfl⟩, by decide, ?_, ⟨_, rfl⟩⟩
  rintro v ⟨s', h⟩
  have h' : (machine 6 [2]).snapshot.fetchInstr = .ok (.noop, passed 1 (machine 6 [2])) := rfl
  rw [h'] at h
  cases h

theorem witness_InvalidAddressIsSticky :
    (∃ t, step ((machine 6 [22]).setInvalidAddress true) = .next t) ∧
    ((machine 6 [22]).setInvalidAddress true).flags.invalidAddress = true := ⟨⟨_, rfl⟩, by decide⟩

theorem witness_OnlyTestWritesTheCompareFlags :
    (∃ t, step (machine 6 [10, 0]) = .next t) ∧ (∀ ra rb, ¬ (machine 6 [10, 0]).running (.test ra rb)) := by
  refine ⟨⟨_, rfl⟩, ?_⟩
  rintro ra rb ⟨s', h⟩
  have h' : (machine 6 [10, 0]).snapshot.fetchInstr = .ok (.dec .r0, passed 2 (machine 6 [10, 0])) := rfl
  rw [h'] at h
  cases h

theorem witness_OnlyHaltSetsHalt :
    (∃ t, step (machine 12 [0]) = .next t) ∧ (machine 12 [0]).running .halt ∧ (∃ t, step (machine 12 [23]) = .next t) :=
  ⟨⟨_, rfl⟩, ⟨_, rfl⟩, ⟨_, rfl⟩⟩

/-- A step of `push` and a cell it does not store to; a step that executes no instruction. -/
theorem witness_OnlyStoreAndPushWriteMemory :
    (machine 6 [7, 10]).Inv ∧ (∃ t, step (machine 6 [7, 10]) = .next t) ∧ (machine 6 [7, 10]).running (.push .sp) ∧
    mayStore (machine 6 [7, 10]) (.push .sp) ≠ some 254 ∧
    (machine 6 [23]).Inv ∧ (∃ t, step (machine 6 [23]) = .next t) ∧ (∀ i, ¬ (machine 6 [23]).running i) := by
  refine ⟨inv_of (by decide), ⟨_, rfl⟩, ⟨_, rfl⟩, by decide, inv_of (by decide), ⟨_, rfl⟩, ?_⟩
  rintro i ⟨s', h⟩
  have h' : (machine 6 [23]).snapshot.fetchInstr = .error .unknownOpcode := rfl
  rw [h'] at h
  cases h

theorem witness_RegisterWritesAreThoseOfTheRule :
    (machine 6 [8, 0]).Inv ∧ (∃ t, step (machine 6 [8, 0]) = .next t) ∧ (machine 6 [8, 0]).running (.pop .r0) ∧
    (machine 256 []).Inv ∧ (∃ t, step (machine 256 []) = .next t) ∧ (∀ i, ¬ (machine 256 []).running i) := by
  refine ⟨inv_of (by decide), ⟨_, rfl⟩, ⟨_, rfl⟩, inv_of (by decide), ⟨_, rfl⟩, ?_⟩
  rintro i ⟨s', h⟩
  have h' : (machine 256 []).snapshot.fetchInstr = .error .invalidAddress := rfl
  rw [h'] at h
  cases h

theorem witness_TrapsArePreciseInPosition :
    ∃ t, (machine 6 [21]).Inv ∧ step (machine 6 [21]) = .next t ∧ (machine 6 [21]).flags.exception = false ∧
      t.flags.exception = true := ⟨trapped (machine 6 [21]), inv_of (by decide), rfl, by decide, by decide⟩

theorem witness_HiddenFlagsDoNotInfluenceExecution :
    SameButHiddenFlags (machine 6 [21])
      ((machine 6 [21]).setFlags
        { State.reset.flags with exception := true, greater := true, less := true, invalidAddress := true }) ∧
    ∃ t, step (machine 6 [21]) = .next t := ⟨by decide, ⟨_, rfl⟩⟩

theorem witness_LoadReadsTheCellOrTraps :
    State.reset.valid 0 ∧ State.reset.valid 255 ∧ ¬ State.reset.valid (-1) ∧ ¬ State.reset.valid 256 := by decide

theorem witness_StoreWritesTheCellOrTraps :
    (machine 0 [2]).mem.wf ∧ (machine 0 [2]).valid 0 ∧ (machine 0 [2]).valid 255 ∧ ¬ (machine 0 [2]).valid (-1) ∧
    ¬ (machine 0 [2]).valid 256 := by decide

/-- SP at 0, 255, -1 and 256. -/
theorem witness_PushStoresThenLowersSp :
    (machine 0 [2]).params.legal ∧ State.reset.params.legal ∧ (machine 0 [2]).mem.wf ∧ (machine 0 [2]).valid ((machine 0 [2]).reg .sp) ∧
    State.reset.mem.wf ∧ State.reset.valid (State.reset.reg .sp) ∧
    ¬ (State.reset.setReg .sp (-1)).valid ((State.reset.setReg .sp (-1)).reg .sp) ∧
    ¬ (State.reset.setReg .sp 256).valid ((State.reset.setReg .sp 256).reg .sp) := by decide

/-- SP at -1, 254, 255, -2 and the most positive Word. -/
theorem witness_PopRaisesSpThenLoads :
    (State.reset.setReg .sp (-1)).valid (wrap Params.reference (((State.reset.setReg .sp (-1)).reg .sp) + 1)) ∧
    (State.reset.setReg .sp 254).valid (wrap Params.reference (((State.reset.setReg .sp 254).reg .sp) + 1)) ∧
    ¬ (State.reset.setReg .sp 255).valid (wrap Params.reference (((State.reset.setReg .sp 255).reg .sp) + 1)) ∧
    ¬ (State.reset.setReg .sp (-2)).valid (wrap Params.reference (((State.reset.setReg .sp (-2)).reg .sp) + 1)) ∧
    ¬ (State.reset.setReg .sp 2147483647).valid (wrap Params.reference (((State.reset.setReg .sp 2147483647).reg .sp) + 1)) := by
  and_intros <;> decide

theorem witness_PushThenPopRestores :
    (machine 0 [2]).mem.wf ∧ (machine 0 [2]).params.legal ∧ (machine 0 [2]).valid ((machine 0 [2]).reg .sp) ∧
    State.reset.mem.wf ∧ State.reset.params.legal ∧ State.reset.valid (State.reset.reg .sp) := by decide

/-- A register at the most positive Word, at the most negative one and between. -/
theorem witness_IncAndDecWrap :
    State.reset.params.legal ∧
    isWord Params.reference ((State.reset.setReg .r0 2147483647).reg .r0) ∧
    (State.reset.setReg .r0 2147483647).reg .r0 = Params.reference.maxWord ∧
    isWord Params.reference ((State.reset.setReg .r0 (-2147483648)).reg .r0) ∧
    (State.reset.setReg .r0 (-2147483648)).reg .r0 = Params.reference.minWord ∧
    isWord Params.reference (State.reset.reg .r0) := by decide

theorem witness_StepOfJumpAndRet :
    (machine 254 [13, 300]).atWords [13, 300] ∧ (machine 255 [13]).atLastWords [13] ∧ (machine 255 [19]).atWords [19] := by
  and_intros <;> first | decide | exact fun r => by cases r <;> decide

theorem witness_StepOfConditionalJumps :
    (machine 15 [14, 6]).atWords [14, 6] ∧ (machine 15 [15, 6]).atWords [15, 6] ∧ (machine 15 [16, 6]).atWords [16, 6] ∧
    (machine 15 [17, 6]).atWords [17, 6] := by
  and_intros <;> first | decide | exact fun r => by cases r <;> decide

theorem witness_StepOfPush :
    (machine 6 [7, 8]).atWords [7, wordOfReg .xp] ∧ (machine 6 [7, 8]).valid ((machine 6 [7, 8]).reg .sp) ∧
    ((machine 6 [7, 8]).setReg .sp (-1)).atWords [7, wordOfReg .xp] ∧
    ¬ ((machine 6 [7, 8]).setReg .sp (-1)).valid (((machine 6 [7, 8]).setReg .sp (-1)).reg .sp) ∧
    (machine 255 [7]).atLastWords [7] ∧ (machine 6 [7, 14]).atWords [7, 14] ∧ NoRegister 14 := by
  and_intros <;> first | decide | exact fun r => by cases r <;> decide

theorem witness_StepOfPop :
    ((machine 6 [8, 10]).setReg .sp (-1)).atWords [8, wordOfReg .sp] ∧
    ((machine 6 [8, 10]).setReg .sp (-1)).valid (wrap Params.reference (((machine 6 [8, 10]).setReg .sp (-1)).reg .sp + 1)) ∧
    (machine 6 [8, 10]).atWords [8, wordOfReg .sp] ∧
    ¬ (machine 6 [8, 10]).valid (wrap Params.reference ((machine 6 [8, 10]).reg .sp + 1)) ∧
    (machine 255 [8]).atLastWords [8] ∧ (machine 6 [8, -1]).atWords [8, -1] ∧ NoRegister (-1) := by
  and_intros <;> first | decide | exact fun r => by cases r <;> decide

theorem witness_StepOfTest :
    (machine 6 [12, 8, 9]).atWords [12, wordOfReg .xp, wordOfReg .ip] ∧ (machine 255 [12]).atLastWords [12] ∧
    (machine 254 [12, 0]).atLastWords [12, wordOfReg .r0] ∧ (machine 6 [12, 14]).atWords [12, 14] ∧
    (machine 6 [12, 0, 14]).atWords [12, wordOfReg .r0, 14] ∧ NoRegister 14 := by
  and_intros <;> first | decide | exact fun r => by cases r <;> decide

theorem witness_StepOfCallAndSettrap :
    (machine 3 [18, 300]).atWords [18, 300] ∧ (machine 0 [20, -5]).atWords [20, -5] ∧
    (machine 255 [18]).atLastWords [18] ∧ (machine 255 [20]).atLastWords [20] := by
  and_intros <;> first | decide | exact fun r => by cases r <;> decide

theorem witness_StepOfHaltAndSet :
    (machine 255 [0]).atWords [0] ∧ (machine 0 [3, 8, 40]).atWords [3, wordOfReg .xp, 40] ∧
    (machine 255 [3]).atLastWords [3] ∧ (machine 254 [3, 0]).atLastWords [3, wordOfReg .r0] ∧
    (machine 0 [3, 14]).atWords [3, 14] ∧ NoRegister 14 := by
  and_intros <;> first | decide | exact fun r => by cases r <;> decide

theorem witness_StepOfIntWithoutString :
    (machine 17 [1, 0]).atWords [1, 0] ∧ (machine 17 [1, 1]).atWords [1, 1] ∧ (machine 17 [1, 3]).atWords [1, 3] ∧
    (machine 17 [1, -1]).atWords [1, -1] := by
  and_intros <;> first | decide | exact fun r => by cases r <;> decide

/-- Both ends of the Word range and 0. -/
theorem witness_IntegerTextIsTheDecimalValue :
    Params.reference.legal ∧ isWord Params.reference (-2147483648) ∧ isWord Params.reference 2147483647 ∧
    isWord Params.reference 0 := by decide

/-- A memory of 8 Words, `int 2` at address 1, and the Words `text` at address 6. -/
def printMachine (r0 : Int) (text : List Int) : State :=
  State.placeWords text 6 (State.placeWords [1, 2] 1 (((State.resetOf { wordBits := 32, memSize := 8 }).setReg .xp 1).setReg .r0 r0))

/-- A terminated string, one that reaches the end of memory, and addresses out of range. -/
theorem witness_StepOfPrintString :
    (printMachine 6 [72, 0]).atWords [1, 2] ∧ (printMachine 6 [72, 0]).hasWords 6 ([72] ++ [0]) ∧
    (printMachine 6 [65, 66]).atWords [1, 2] ∧ (printMachine 6 [65, 66]).hasWords 6 [65, 66] ∧
    ((printMachine 6 [65, 66]).reg .r0) + ([65, 66] : List Int).length = (printMachine 6 [65, 66]).params.memSize ∧
    ((65 : Int) ≠ 0 ∧ (66 : Int) ≠ 0 ∧ (72 : Int) ≠ 0) ∧
    (printMachine (-1) []).atWords [1, 2] ∧ ¬ (printMachine (-1) []).valid (-1) ∧
    (printMachine 8 []).atWords [1, 2] ∧ ¬ (printMachine 8 []).valid 8 := by
  and_intros <;> first | decide | exact fun r => by cases r <;> decide

theorem witness_RunStartsAtZero : State.reset.params.legal ∧ (State.resetOf { wordBits := 8, memSize := 1 }).params.legal := by decide

/-- Three Words fit at 253, none at 256, and three do not fit at 254 or at -1. -/
theorem witness_HostLoadWritesTheBlock :
    State.reset.mem.wf ∧ (0 ≤ (253 : Int) ∧ (253 : Int) + ([7, 8, 9] : List Int).length ≤ State.reset.params.memSize) ∧
    (0 ≤ (256 : Int) ∧ (256 : Int) + ([] : List Int).length ≤ State.reset.params.memSize) ∧
    ¬ (0 ≤ (254 : Int) ∧ (254 : Int) + ([7, 8, 9] : List Int).length ≤ State.reset.params.memSize) ∧
    ¬ (0 ≤ (-1 : Int) ∧ (-1 : Int) + ([7, 8, 9] : List Int).length ≤ State.reset.params.memSize) := by decide

theorem witness_RunsEndExactlyAtHalt :
    (∃ t, RunEnds (machine 12 [2, 0]) t) ∧ (State.reset.setHalt true).flags.halt = true ∧
    (∃ t, step (machine 12 [2, 0]) = .next t) := ⟨⟨_, 2, rfl⟩, by decide, ⟨_, rfl⟩⟩

theorem witness_FaultLoopsDiverge :
    ((machine 256 []).setReg .exp 300).flags.halt = false ∧ ((machine 256 []).setReg .exp 300).Inv ∧
    ¬ ((machine 256 []).setReg .exp 300).valid 300 ∧ ¬ ((machine 256 []).setReg .exp 300).valid 256 ∧
    ((machine 256 []).setReg .exp 300).reg .exp = 300 ∧ ((machine 256 []).setReg .exp 300).reg .xp = 256 ∧
    (machine 40 [99]).atWords [99] ∧ 22 < (99 : Int) ∧ (machine 40 [99]).reg .exp = (machine 40 [99]).reg .xp := by
  and_intros <;> first | decide | exact fun r => by cases r <;> decide

end Sys2Proof.Tests
end

section
/-! The whole step of an instruction whose Words stand in memory: what the fetches yield, the step from what they decode to, and
with these the step of `halt` and of `set` (spec/40_core_loop.md R130, R135; spec/41_data_movement.md R150). -/

namespace Sys2Proof.Machine

/-! ### The fetches of a step -/

theorem State.atWords.interrupt_clear {s : State} {ws : List Int} (h : s.atWords ws) : s.flags.interrupt = false := by
  obtain ⟨-, ⟨-, -, -, hint, -⟩, -⟩ := h
  exact hint

theorem State.atWords.codeWords_eq {s : State} {ws : List Int} (h : s.atWords ws) :
    ∃ more, State.codeWords s.params.memSize s.snapshot = ws ++ more := by
  obtain ⟨-, ⟨hlegal, -⟩, hws⟩ := h
  exact ⟨_, State.codeWords_memSize (s := s.snapshot) hlegal (State.hasWords_snapshot.2 hws)⟩

theorem State.atLastWords.codeWords_eq {s : State} {ws : List Int} (h : s.atLastWords ws) :
    State.codeWords s.params.memSize s.snapshot = ws := by
  obtain ⟨⟨-, ⟨hlegal, -⟩, hws⟩, hend⟩ := h
  exact State.codeWords_last (s := s.snapshot) hlegal (State.hasWords_snapshot.2 hws) hend

/-- The snapshot of IP and the advance of XP past `n` Words move these two registers and nothing else (R130). -/
theorem State.moved_snapshot_advance (s : State) (n : Nat) :
    Moved (wrap s.params (s.reg .xp + n)) s (s.snapshot.advance n) := by
  refine ⟨by simp, by simp, ?_, rfl, fun _ => rfl, rfl, rfl, rfl⟩
  intro r hr
  simp only [List.mem_cons, List.not_mem_nil, or_false, not_or] at hr
  obtain ⟨hxp, hip⟩ := hr
  rw [State.reg_advance_ne _ _ hxp, State.reg_snapshot_ne _ hip]

/-! ### The step from what the fetched Words decode to -/

theorem finishStep_next_idle {t : State} (h : t.flags.interrupt = false) : finishStep (.next t) = .next t := by
  rw [finishStep, State.interruptPhase_idle h]

theorem step_of_decode_ok {s : State} {i : Instr} {rest : List Int} (hh : s.flags.halt = false)
    (hd : decode (State.codeWords s.params.memSize s.snapshot) = .ok (i, rest)) :
    step s = finishStep (exec i (s.snapshot.advance i.size)) := by
  simp [step, hh, State.fetchInstr, hd]

theorem step_of_decode_error {s : State} {e : DecodeError} (hh : s.flags.halt = false)
    (hd : decode (State.codeWords s.params.memSize s.snapshot) = .error e) :
    step s = finishStep (.next (s.snapshot.raiseFault (causeOf e))) := by
  simp [step, hh, State.fetchInstr, hd]

/-- The step of an instruction that stands at XP and whose meaning leaves no request pending. -/
theorem State.atWords.step_eq_exec {s t : State} {ws : List Int} {i : Instr} (h : s.atWords ws)
    (hd : ∀ more, decode (ws ++ more) = .ok (i, more)) (hexec : exec i (s.snapshot.advance i.size) = .next t)
    (ht : t.flags.interrupt = false) : step s = .next t := by
  obtain ⟨more, hcode⟩ := h.codeWords_eq
  have hdec : decode (State.codeWords s.params.memSize s.snapshot) = .ok (i, more) := by rw [hcode, hd]
  rw [step_of_decode_ok h.1 hdec, hexec, finishStep_next_idle ht]

/-- A fault of the fetches is the whole step: phase 4 finds no request pending. -/
theorem State.atWords.step_eq_raiseFault {s : State} {ws : List Int} {e : DecodeError} (h : s.atWords ws)
    (hd : decode (State.codeWords s.params.memSize s.snapshot) = .error e) :
    step s = .next (s.snapshot.raiseFault (causeOf e)) := by
  obtain ⟨-, -, -, -, -, -, -, hint, -⟩ := s.snapshot.raiseFault_frame (causeOf e)
  rw [step_of_decode_error h.1 hd, finishStep_next_idle (hint.trans h.interrupt_clear)]

/-- Where memory ends before the instruction does, the step is an InvalidAddress trap (R95). -/
theorem State.atLastWords.step_addressTrap {s : State} {ws : List Int} (h : s.atLastWords ws)
    (hd : decode ws = .error .outOfWords) : ∃ t, step s = .next t ∧ AddressTrap s.snapshot t := by
  have hdec : decode (State.codeWords s.params.memSize s.snapshot) = .error .outOfWords := by rw [h.codeWords_eq, hd]
  exact ⟨_, h.1.step_eq_raiseFault hdec, s.snapshot.raiseFault_invalidAddress⟩

/-- Where a register-operand Word names no register, the step is an UnknownOpcode trap (R104). -/
theorem State.atWords.step_plainTrap_of_badRegister {s : State} {ws : List Int} {w : Int} (h : s.atWords ws)
    (hd : ∀ more, decode (ws ++ more) = .error (.badRegister w)) :
    ∃ t, step s = .next t ∧ PlainTrap s.snapshot t := by
  obtain ⟨more, hcode⟩ := h.codeWords_eq
  have hdec : decode (State.codeWords s.params.memSize s.snapshot) = .error (.badRegister w) := by rw [hcode, hd]
  exact ⟨_, h.step_eq_raiseFault hdec, s.snapshot.raiseFault_unknownOpcode⟩

/-! ### The decoder on the Words of `halt` and `set` -/

theorem wordOfReg_mem_range (r : Reg) : 0 ≤ wordOfReg r ∧ wordOfReg r ≤ 13 := by
  cases r <;> decide

theorem regOfWord_of_noRegister {w : Int} (h : NoRegister w) : regOfWord w = none := by
  cases hr : regOfWord w with
  | none => rfl
  | some r =>
    have hw := wordOfReg_of_regOfWord hr
    have hrange := wordOfReg_mem_range r
    rw [hw] at hrange
    omega

theorem takeReg_of_noRegister {w : Int} (h : NoRegister w) (ws : List Int) :
    takeReg (w :: ws) = .error (.badRegister w) := by
  simp only [takeReg, regOfWord_of_noRegister h]

theorem decode_halt (more : List Int) : decode (0 :: more) = .ok (.halt, more) := rfl

/-- The operands of `set` are decoded after its opcode Word. -/
theorem decode_opcode_set (ws : List Int) : decode (3 :: ws) = decodeOperands (.fri .set) ws := rfl

theorem decode_set (rd : Reg) (v : Int) (more : List Int) :
    decode (3 :: wordOfReg rd :: v :: more) = .ok (.set rd v, more) := by
  rw [decode_opcode_set, decodeOperands, takeReg_wordOfReg]
  rfl

theorem decode_set_cutOff_before_immediate (rd : Reg) : decode [3, wordOfReg rd] = .error .outOfWords := by
  rw [decode_opcode_set, decodeOperands, takeReg_wordOfReg]
  rfl

theorem decode_set_badRegister {w : Int} (h : NoRegister w) (more : List Int) :
    decode (3 :: w :: more) = .error (.badRegister w) := by
  rw [decode_opcode_set, decodeOperands, takeReg_of_noRegister h]
  rfl

/-! ### The steps of `halt` and `set` -/

theorem step_halt {s : State} (h : s.atWords [0]) : step s = .next ((s.snapshot.advance 1).setHalt true) :=
  h.step_eq_exec decode_halt rfl h.interrupt_clear

theorem step_set {s : State} {rd : Reg} {v : Int} (h : s.atWords [3, wordOfReg rd, v]) :
    step s = .next ((s.snapshot.advance 3).setReg rd v) :=
  h.step_eq_exec (decode_set rd v) rfl h.interrupt_clear

/-- Settles O53: the two instructions that succeed change what their `exec` changes, and each fault of `set` is found by the
decoder before the instruction acts. -/
theorem stepOfHaltAndSet : Obligations.StepOfHaltAndSet := by
  refine ⟨?halt, ?set, ?noOperand, ?noImmediate, ?badRegister⟩
  case halt =>
    intro s h
    obtain ⟨hxp, hip, hregs, hflags, hmem, hrest⟩ := s.moved_snapshot_advance 1
    exact ⟨_, step_halt h, hxp, hip, hregs, rfl, hmem, hrest⟩
  case set =>
    intro s rd v h
    obtain ⟨hxp, hip, hregs, hflags, hmem, hrest⟩ := s.moved_snapshot_advance 3
    refine ⟨_, step_set h, State.reg_setReg_same _ rd v, ?_, ?_, ?_, hflags, hmem, hrest⟩
    · intro hne
      exact (State.reg_setReg_ne _ v hne.symm).trans hxp
    · intro hne
      exact (State.reg_setReg_ne _ v hne.symm).trans hip
    · intro r hr
      obtain ⟨hrd, hmoved⟩ := not_or.1 (mt List.mem_cons.2 hr)
      exact (State.reg_setReg_ne _ v hrd).trans (hregs r hmoved)
  case noOperand =>
    intro s h
    exact h.step_addressTrap rfl
  case noImmediate =>
    intro s rd h
    exact h.step_addressTrap (decode_set_cutOff_before_immediate rd)
  case badRegister =>
    intro s w h hw
    exact h.step_plainTrap_of_badRegister (decode_set_badRegister hw)

end Sys2Proof.Machine
end

section
/-! The whole steps of `push` and `pop` (spec/41_data_movement.md R154, R155): the decoder on a row with one register operand, what
`exec` answers where the stack cell is valid and where it is not, and the steps assembled from these. -/

namespace Sys2Proof.Machine

/-! ### The decoder on a row with one register operand -/

theorem decodeOperands_fr (mk : Reg → Instr) (r : Reg) (more : List Int) :
    decodeOperands (.fr mk) (wordOfReg r :: more) = .ok (mk r, more) := by
  rw [decodeOperands, takeReg_wordOfReg]
  rfl

theorem decodeOperands_fr_badRegister (mk : Reg → Instr) {w : Int} (h : NoRegister w) (more : List Int) :
    decodeOperands (.fr mk) (w :: more) = .error (.badRegister w) := by
  rw [decodeOperands, takeReg_of_noRegister h]
  rfl

/-- The operand of `push` is decoded after its opcode Word. -/
theorem decode_opcode_push (ws : List Int) : decode (7 :: ws) = decodeOperands (.fr .push) ws := rfl

/-- The operand of `pop` is decoded after its opcode Word. -/
theorem decode_opcode_pop (ws : List Int) : decode (8 :: ws) = decodeOperands (.fr .pop) ws := rfl

theorem decode_push (r : Reg) (more : List Int) : decode (7 :: wordOfReg r :: more) = .ok (.push r, more) :=
  (decode_opcode_push _).trans (decodeOperands_fr .push r more)

theorem decode_pop (r : Reg) (more : List Int) : decode (8 :: wordOfReg r :: more) = .ok (.pop r, more) :=
  (decode_opcode_pop _).trans (decodeOperands_fr .pop r more)

/-! ### What an instruction finds after its fetches -/

theorem State.atWords.mem_wf {s : State} {ws : List Int} (h : s.atWords ws) : s.mem.wf := by
  obtain ⟨-, ⟨-, ⟨hwf, -⟩, -⟩, -⟩ := h
  exact hwf

/-- R157: inside an instruction of `n` Words a register reads as its operand value. -/
theorem State.reg_snapshot_advance (s : State) (n : Nat) (r : Reg) :
    (s.snapshot.advance n).reg r = operandValue s n r := by
  unfold operandValue
  split
  · next hxp => subst hxp; simp
  · next hxp =>
    rw [State.reg_advance_ne _ _ hxp]
    split
    · next hip => subst hip; exact s.reg_snapshot_ip
    · next hip => exact s.reg_snapshot_ne hip

/-- Trap entry overwrites XP, so the XP that the fault found is not seen in the trap. -/
theorem AddressTrap.of_advance {s t : State} {n : Nat} (h : AddressTrap (s.advance n) t) : AddressTrap s t := by
  obtain ⟨heip, hxp, hflags, hregs, hmem, hrest⟩ := h
  refine ⟨heip, hxp, hflags, ?_, hmem, hrest⟩
  intro r hr
  have hne : r ≠ .xp := fun he => hr (by simp [he])
  exact (hregs r hr).trans (s.reg_advance_ne n hne)

/-! ### The meanings of `push` and `pop` -/

theorem exec_push_valid {s : State} (rs : Reg) (h : s.valid (s.reg .sp)) :
    exec (.push rs) s =
      .next ((s.setCell (s.reg .sp).toNat (s.reg rs)).setReg .sp (wrap s.params (s.reg .sp - 1))) := by
  simp only [exec, execPush, State.memWrite_valid _ h, State.reg_setCell]

theorem exec_push_invalid {s : State} (rs : Reg) (h : ¬ s.valid (s.reg .sp)) :
    exec (.push rs) s = .next (s.raiseFault .invalidAddress) := by
  simp only [exec, execPush, State.memWrite_invalid _ h]

/-- A register write changes nothing that a read of memory depends on. -/
theorem State.memRead_setReg (s : State) (r : Reg) (v a : Int) : (s.setReg r v).memRead a = s.memRead a := rfl

/-- The state of a `pop` between its two effects: SP raised, nothing loaded yet (R155). -/
def State.raiseSp (s : State) : State := s.setReg .sp (wrap s.params (s.reg .sp + 1))

theorem State.raiseSp_advance (s : State) (n : Nat) : (s.advance n).raiseSp = s.raiseSp.advance n := rfl

theorem State.reg_raiseSp_sp (s : State) : s.raiseSp.reg .sp = wrap s.params (s.reg .sp + 1) :=
  s.reg_setReg_same .sp _

theorem State.reg_raiseSp_ne (s : State) {r : Reg} (h : r ≠ .sp) : s.raiseSp.reg r = s.reg r :=
  s.reg_setReg_ne _ h

theorem exec_pop_valid {s : State} (rd : Reg) (h : s.valid (wrap s.params (s.reg .sp + 1))) :
    exec (.pop rd) s = .next (s.raiseSp.setReg rd (s.cell (wrap s.params (s.reg .sp + 1)).toNat)) := by
  simp only [exec, execPop, State.raiseSp, State.reg_setReg_same, State.memRead_setReg, State.memRead_valid h]

theorem exec_pop_invalid {s : State} (rd : Reg) (h : ¬ s.valid (wrap s.params (s.reg .sp + 1))) :
    exec (.pop rd) s = .next (s.raiseSp.raiseFault .invalidAddress) := by
  simp only [exec, execPop, State.raiseSp, State.reg_setReg_same, State.memRead_setReg, State.memRead_invalid h]

/-! ### The steps of `push` and `pop` -/

theorem step_push_valid {s : State} {r : Reg} (h : s.atWords [7, wordOfReg r]) (hv : s.valid (s.reg .sp)) :
    step s =
      .next (((s.snapshot.advance 2).setCell (s.reg .sp).toNat (operandValue s 2 r)).setReg .sp
        (wrap s.params (s.reg .sp - 1))) := by
  rw [← State.reg_snapshot_advance]
  exact h.step_eq_exec (decode_push r) (exec_push_valid (s := s.snapshot.advance 2) r hv) h.interrupt_clear

theorem step_push_invalid {s : State} {r : Reg} (h : s.atWords [7, wordOfReg r]) (hv : ¬ s.valid (s.reg .sp)) :
    step s = .next ((s.snapshot.advance 2).raiseFault .invalidAddress) :=
  h.step_eq_exec (decode_push r) (exec_push_invalid (s := s.snapshot.advance 2) r hv) h.interrupt_clear

theorem step_pop_valid {s : State} {r : Reg} (h : s.atWords [8, wordOfReg r])
    (hv : s.valid (wrap s.params (s.reg .sp + 1))) :
    step s =
      .next ((s.snapshot.advance 2).raiseSp.setReg r (s.cell (wrap s.params (s.reg .sp + 1)).toNat)) :=
  h.step_eq_exec (decode_pop r) (exec_pop_valid (s := s.snapshot.advance 2) r hv) h.interrupt_clear

theorem step_pop_invalid {s : State} {r : Reg} (h : s.atWords [8, wordOfReg r])
    (hv : ¬ s.valid (wrap s.params (s.reg .sp + 1))) :
    step s = .next ((s.snapshot.raiseSp.advance 2).raiseFault .invalidAddress) := by
  rw [← State.raiseSp_advance]
  exact h.step_eq_exec (decode_pop r) (exec_pop_invalid (s := s.snapshot.advance 2) r hv) h.interrupt_clear

/-- Settles O49: the store goes to the one cell at the old SP, with the operand read after the fetches; a fault of SP comes from
the meaning of `push`, the two operand faults from the decoder. -/
theorem stepOfPush : Obligations.StepOfPush := by
  refine ⟨?stored, ?spOutOfRange, ?noOperand, ?badRegister⟩
  case stored =>
    intro s r h hv
    obtain ⟨hxp, hip, hregs, hflags, -, hrest⟩ := s.moved_snapshot_advance 2
    have hcell := (s.snapshot.advance 2).cell_setCell (s.reg .sp).toNat (operandValue s 2 r) (h := h.mem_wf)
    refine ⟨_, step_push_valid h hv, ?_, ?_, State.reg_setReg_same _ _ _, hxp, hip, ?_, hflags, hrest⟩
    · exact (hcell _).trans (if_pos rfl)
    · intro j hj
      exact (hcell j).trans (if_neg hj)
    · intro q hq
      obtain ⟨hsp, hmoved⟩ := not_or.1 (mt List.mem_cons.2 hq)
      exact (State.reg_setReg_ne _ _ hsp).trans (hregs q hmoved)
  case spOutOfRange =>
    intro s r h hv
    exact ⟨_, step_push_invalid h hv, .of_advance (State.raiseFault_invalidAddress _)⟩
  case noOperand =>
    intro s h
    exact h.step_addressTrap rfl
  case badRegister =>
    intro s w h hw
    exact h.step_plainTrap_of_badRegister (decodeOperands_fr_badRegister .push hw)

/-- Settles O50: SP is raised first and the destination written last, so a destination SP, XP or IP ends with the popped value;
a fault of the raised SP comes from the meaning of `pop`, the two operand faults from the decoder. -/
theorem stepOfPop : Obligations.StepOfPop := by
  refine ⟨?loaded, ?spOutOfRange, ?noOperand, ?badRegister⟩
  case loaded =>
    intro s r h hv
    obtain ⟨hxp, hip, hregs, hflags, hmem, hrest⟩ := s.moved_snapshot_advance 2
    refine ⟨_, step_pop_valid h hv, State.reg_setReg_same _ r _, ?_, ?_, ?_, ?_, hflags, hmem, hrest⟩
    · intro hne
      exact (State.reg_setReg_ne _ _ hne.symm).trans (State.reg_raiseSp_sp _)
    · intro hne
      exact (State.reg_setReg_ne _ _ hne.symm).trans hxp
    · intro hne
      exact (State.reg_setReg_ne _ _ hne.symm).trans hip
    · intro q hq
      obtain ⟨hr, hq'⟩ := not_or.1 (mt List.mem_cons.2 hq)
      obtain ⟨hsp, hmoved⟩ := not_or.1 (mt List.mem_cons.2 hq')
      calc
        ((s.snapshot.advance 2).raiseSp.setReg r _).reg q
          = (s.snapshot.advance 2).raiseSp.reg q := State.reg_setReg_ne _ _ hr
        _ = (s.snapshot.advance 2).reg q := State.reg_raiseSp_ne _ hsp
        _ = s.reg q := hregs q hmoved
  case spOutOfRange =>
    intro s r h hv
    have htrap := (s.snapshot.raiseSp.advance 2).raiseFault_invalidAddress.of_advance
    exact ⟨_, step_pop_invalid h hv, htrap⟩
  case noOperand =>
    intro s h
    exact h.step_addressTrap rfl
  case badRegister =>
    intro s w h hw
    exact h.step_plainTrap_of_badRegister (decodeOperands_fr_badRegister .pop hw)

end Sys2Proof.Machine
end

section
/-! The whole step of `test` (spec/42_arith_compare.md R167): the decoder on a row with two register operands, what the comparison
says of each flag, and the step assembled from these. -/

namespace Sys2Proof.Machine

/-! ### The decoder on a row with two register operands -/

/-- Once its first operand is decoded, the row is one with a single register operand left. -/
theorem decodeOperands_frr_cons (mk : Reg → Reg → Instr) (ra : Reg) (ws : List Int) :
    decodeOperands (.frr mk) (wordOfReg ra :: ws) = decodeOperands (.fr (mk ra)) ws := by
  simp only [decodeOperands, takeReg_wordOfReg]
  rfl

theorem decodeOperands_frr_badFirst (mk : Reg → Reg → Instr) {w : Int} (h : NoRegister w) (more : List Int) :
    decodeOperands (.frr mk) (w :: more) = .error (.badRegister w) := by
  rw [decodeOperands, takeReg_of_noRegister h]
  rfl

theorem decodeOperands_frr_badSecond (mk : Reg → Reg → Instr) (ra : Reg) {w : Int} (h : NoRegister w)
    (more : List Int) : decodeOperands (.frr mk) (wordOfReg ra :: w :: more) = .error (.badRegister w) :=
  (decodeOperands_frr_cons mk ra _).trans (decodeOperands_fr_badRegister (mk ra) h more)

/-- The operands of `test` are decoded after its opcode Word. -/
theorem decode_opcode_test (ws : List Int) : decode (12 :: ws) = decodeOperands (.frr .test) ws := rfl

theorem decode_test (ra rb : Reg) (more : List Int) :
    decode (12 :: wordOfReg ra :: wordOfReg rb :: more) = .ok (.test ra rb, more) :=
  calc
    decode (12 :: wordOfReg ra :: wordOfReg rb :: more)
      = decodeOperands (.frr .test) (wordOfReg ra :: wordOfReg rb :: more) := decode_opcode_test _
    _ = decodeOperands (.fr (.test ra)) (wordOfReg rb :: more) := decodeOperands_frr_cons .test ra _
    _ = .ok (.test ra rb, more) := decodeOperands_fr (.test ra) rb more

/-! ### The comparison -/

theorem compareFlags_zero_iff (f : Flags) (a b : Int) : (compareFlags f a b).zero = true ↔ a = 0 :=
  decide_eq_true_iff

theorem compareFlags_equal_iff (f : Flags) (a b : Int) : (compareFlags f a b).equal = true ↔ a = b :=
  decide_eq_true_iff

theorem compareFlags_greater_iff (f : Flags) (a b : Int) : (compareFlags f a b).greater = true ↔ a > b :=
  decide_eq_true_iff

theorem compareFlags_less_iff (f : Flags) (a b : Int) : (compareFlags f a b).less = true ↔ a < b :=
  decide_eq_true_iff

/-- One of Equal, Greater and Less is set, whatever the operands (R43). -/
theorem compareFlags_some (f : Flags) (a b : Int) :
    (compareFlags f a b).equal = true ∨ (compareFlags f a b).greater = true ∨ (compareFlags f a b).less = true := by
  rw [compareFlags_equal_iff, compareFlags_greater_iff, compareFlags_less_iff]
  omega

/-- No two of Equal, Greater and Less are set together (R43). -/
theorem compareFlags_compareOk (f : Flags) (a b : Int) : (compareFlags f a b).compareOk := by
  rw [Flags.compareOk, compareFlags_equal_iff, compareFlags_greater_iff, compareFlags_less_iff]
  omega

/-! ### The step of `test` -/

/-- The comparison finds both operands as they read after the three fetches (R157). -/
theorem step_test {s : State} {ra rb : Reg} (h : s.atWords [12, wordOfReg ra, wordOfReg rb]) :
    step s =
      .next ((s.snapshot.advance 3).setFlags
        (compareFlags s.flags (operandValue s 3 ra) (operandValue s 3 rb))) := by
  rw [← State.reg_snapshot_advance, ← State.reg_snapshot_advance]
  exact h.step_eq_exec (decode_test ra rb) rfl h.interrupt_clear

/-- Settles O51: after the fetches only the flags are written, as the comparison of the two operand values says; each fault is
found by the decoder, before any flag is. -/
theorem stepOfTest : Obligations.StepOfTest := by
  refine ⟨?compared, ?noOperand, ?noSecondOperand, ?badFirst, ?badSecond⟩
  case compared =>
    intro s ra rb h
    obtain ⟨hxp, hip, hregs, -, hmem, hrest⟩ := s.moved_snapshot_advance 3
    exact ⟨_, step_test h, compareFlags_zero_iff _ _ _, compareFlags_equal_iff _ _ _, compareFlags_greater_iff _ _ _,
      compareFlags_less_iff _ _ _, compareFlags_some _ _ _, compareFlags_compareOk _ _ _, rfl, rfl, rfl, rfl,
      hxp, hip, hregs, hmem, hrest⟩
  case noOperand =>
    intro s h
    exact h.step_addressTrap rfl
  case noSecondOperand =>
    intro s ra h
    exact h.step_addressTrap (decodeOperands_frr_cons .test ra [])
  case badFirst =>
    intro s w h hw
    exact h.step_plainTrap_of_badRegister (decodeOperands_frr_badFirst .test hw)
  case badSecond =>
    intro s ra w h hw
    exact h.step_plainTrap_of_badRegister (decodeOperands_frr_badSecond .test ra hw)

end Sys2Proof.Machine
end

section
/-! The whole steps of the control transfers (spec/43_control_transfer.md R175 to R182) and of `settrap`
(spec/44_trap_interrupt_instr.md R190): the decoder on a row with one address operand, what a register write does to the
state the fetches leave, and the steps assembled from these. -/

namespace Sys2Proof.Machine

/-! ### The decoder on a row with one address operand -/

theorem decode_of_shapeOf_fa {op : Int} {mk : Int → Instr} (h : shapeOf op = some (.fa mk)) (a : Int)
    (more : List Int) : decode ([op, a] ++ more) = .ok (mk a, more) := by
  simp only [decode, List.cons_append, h]
  rfl

theorem decode_cutOff_of_shapeOf_fa {op : Int} {mk : Int → Instr} (h : shapeOf op = some (.fa mk)) :
    decode [op] = .error .outOfWords := by
  simp only [decode, h]
  rfl

theorem decode_ret (more : List Int) : decode ([19] ++ more) = .ok (.ret, more) := rfl

/-! ### Register writes after the fetches -/

/-- Writes to two registers can be made in either order. -/
theorem State.setReg_comm (s : State) {r q : Reg} (h : r ≠ q) (v w : Int) :
    (s.setReg r v).setReg q w = (s.setReg q w).setReg r v := by
  have hregs : (s.regs.set r v).set q w = (s.regs.set q w).set r v := by
    refine Regs.ext_get _ _ fun p => ?_
    rw [Regs.get_set, Regs.get_set, Regs.get_set, Regs.get_set]
    by_cases hr : p = r
    · subst hr
      rw [if_neg h, if_pos rfl, if_pos rfl]
    · rw [if_neg hr, if_neg hr]
  simp only [State.setReg, hregs]

/-- A later write of XP is the one that counts. -/
theorem Moved.setReg_xp {x : Int} {s t : State} (h : Moved x s t) (a : Int) : Moved a s (t.setReg .xp a) := by
  obtain ⟨-, hip, hregs, hflags, hmem, hrest⟩ := h
  refine ⟨t.reg_setReg_same .xp a, (t.reg_setReg_ne a (by decide)).trans hip, ?_, hflags, hmem, hrest⟩
  intro r hr
  exact (t.reg_setReg_ne a (List.ne_of_not_mem_cons hr)).trans (hregs r hr)

/-- A jump goes to its target where it is taken and stays on course where it is not (R180). -/
theorem Moved.jumpIf {x : Int} {s t : State} (h : Moved x s t) (taken : Bool) (a : Int) :
    Moved (if taken = true then a else x) s (t.jumpIf taken a) := by
  cases taken with
  | false => exact h
  | true => exact h.setReg_xp a

/-- A write of one register besides XP and IP adds that register, and nothing else, to what a step changes. -/
theorem Moved.setReg_other {x : Int} {s t : State} (h : Moved x s t) {r : Reg} (v : Int) (hxp : r ≠ .xp)
    (hip : r ≠ .ip) :
    (t.setReg r v).reg r = v ∧ (t.setReg r v).reg .xp = x ∧ (t.setReg r v).reg .ip = s.reg .xp ∧
    SameRegsExcept [r, .xp, .ip] s (t.setReg r v) ∧ (t.setReg r v).flags = s.flags ∧
    SameMemory s (t.setReg r v) ∧ SameRest s (t.setReg r v) := by
  obtain ⟨htxp, htip, hregs, hflags, hmem, hrest⟩ := h
  refine ⟨t.reg_setReg_same r v, (t.reg_setReg_ne v hxp.symm).trans htxp, (t.reg_setReg_ne v hip.symm).trans htip, ?_,
    hflags, hmem, hrest⟩
  intro q hq
  obtain ⟨hr, hmoved⟩ := not_or.1 (mt List.mem_cons.2 hq)
  exact (t.reg_setReg_ne v hr).trans (hregs q hmoved)

/-! ### The steps -/

/-- The step of an instruction whose meaning is to jump under a condition: to the target, or past its own Words. -/
theorem State.atWords.step_jumpIf {s : State} {ws : List Int} {i : Instr} {taken : Bool} {a : Int} (h : s.atWords ws)
    (hd : ∀ more, decode (ws ++ more) = .ok (i, more))
    (hexec : exec i (s.snapshot.advance i.size) = .next ((s.snapshot.advance i.size).jumpIf taken a)) :
    ∃ t, step s = .next t ∧ Moved (if taken = true then a else wrap s.params (s.reg .xp + i.size)) s t := by
  have hmoved := (s.moved_snapshot_advance i.size).jumpIf taken a
  have hint : ((s.snapshot.advance i.size).jumpIf taken a).flags.interrupt = false := by
    obtain ⟨-, -, -, hflags, -⟩ := hmoved
    rw [hflags, h.interrupt_clear]
  exact ⟨_, h.step_eq_exec hd hexec hint, hmoved⟩

/-- The same for the five instructions that jump to their address operand, of two Words each. -/
theorem State.atWords.step_jumpIf_fa {s : State} {op a : Int} {mk : Int → Instr} {taken : Bool}
    (h : s.atWords [op, a]) (hop : shapeOf op = some (.fa mk)) (hsize : (mk a).size = 2)
    (hexec : exec (mk a) (s.snapshot.advance 2) = .next ((s.snapshot.advance 2).jumpIf taken a)) :
    ∃ t, step s = .next t ∧ Moved (if taken = true then a else wrap s.params (s.reg .xp + 2)) s t := by
  have hstep := h.step_jumpIf (taken := taken) (a := a) (decode_of_shapeOf_fa hop a) (by rw [hsize, hexec])
  rwa [hsize] at hstep

/-- R181: XP already stands past both Words when `call` saves it, so RP holds the address of the next instruction. -/
theorem step_call {s : State} {a : Int} (h : s.atWords [18, a]) :
    step s =
      .next (((s.snapshot.advance 2).setReg .xp a).setReg .rp (wrap s.params (s.reg .xp + (2 : Nat)))) := by
  obtain ⟨hxp, -⟩ := s.moved_snapshot_advance 2
  rw [State.setReg_comm _ (by decide), ← hxp]
  exact h.step_eq_exec (decode_of_shapeOf_fa (mk := .call) rfl a) rfl h.interrupt_clear

theorem step_settrap {s : State} {a : Int} (h : s.atWords [20, a]) :
    step s = .next ((s.snapshot.advance 2).setReg .exp a) :=
  h.step_eq_exec (decode_of_shapeOf_fa (mk := .settrap) rfl a) rfl h.interrupt_clear

/-- Settles O47: `jump` and `ret` are jumps that are always taken, `ret` to the RP that its fetch has left alone; the
fault of `jump` is found by the decoder. -/
theorem stepOfJumpAndRet : Obligations.StepOfJumpAndRet := by
  refine ⟨?jump, ?noOperand, ?ret⟩
  case jump =>
    intro s a h
    exact h.step_jumpIf_fa (mk := .jump) (taken := true) rfl rfl rfl
  case noOperand =>
    intro s h
    exact h.step_addressTrap (decode_cutOff_of_shapeOf_fa (mk := .jump) rfl)
  case ret =>
    intro s h
    obtain ⟨-, -, hregs, -⟩ := s.moved_snapshot_advance 1
    have hrp : (s.snapshot.advance 1).reg .rp = s.reg .rp := hregs .rp (by decide)
    rw [← hrp]
    exact h.step_jumpIf (taken := true) decode_ret rfl

/-- Settles O48: each of the four is a jump under the condition its `exec` reads from the flags, which the fetches leave
alone. -/
theorem stepOfConditionalJumps : Obligations.StepOfConditionalJumps := by
  intro s a
  refine ⟨?jz, ?jnz, ?je, ?jne⟩
  case jz =>
    intro h
    exact h.step_jumpIf_fa (mk := .jz) (taken := s.flags.zero) rfl rfl rfl
  case jnz =>
    intro h
    simpa only [Bool.not_eq_true'] using h.step_jumpIf_fa (mk := .jnz) (taken := !s.flags.zero) rfl rfl rfl
  case je =>
    intro h
    exact h.step_jumpIf_fa (mk := .je) (taken := s.flags.equal) rfl rfl rfl
  case jne =>
    intro h
    simpa only [Bool.not_eq_true'] using h.step_jumpIf_fa (mk := .jne) (taken := !s.flags.equal) rfl rfl rfl

/-- Settles O52: both instructions write one register besides the XP and IP of every step; their fault is found by the
decoder, before RP or EXP is written. -/
theorem stepOfCallAndSettrap : Obligations.StepOfCallAndSettrap := by
  refine ⟨?call, ?settrap, ?noOperand⟩
  case call =>
    intro s a h
    have hmoved := (s.moved_snapshot_advance 2).setReg_xp a
    exact ⟨_, step_call h, hmoved.setReg_other _ (by decide) (by decide)⟩
  case settrap =>
    intro s a h
    exact ⟨_, step_settrap h, (s.moved_snapshot_advance 2).setReg_other a (by decide) (by decide)⟩
  case noOperand =>
    intro s op hop h
    rcases List.mem_pair.1 hop with rfl | rfl
    · exact h.step_addressTrap (decode_cutOff_of_shapeOf_fa (mk := .call) rfl)
    · exact h.step_addressTrap (decode_cutOff_of_shapeOf_fa (mk := .settrap) rfl)

end Sys2Proof.Machine
end

section
/-! The writes that open `run()` (spec/70_reset_and_hazards.md R252): what each register reads as after them, and the statement
about `run()` assembled from these. -/

namespace Sys2Proof.Machine

/-- The greatest address is a Word at every legal width, so `run()` writes it to SP unwrapped (R5). -/
theorem wrap_memSize_sub_one {p : Params} (h : p.legal) : wrap p ((p.memSize : Int) - 1) = p.memSize - 1 := by
  have hsize : 1 ≤ p.memSize := h.2.1
  exact wrap_of_isWord (isWord_of_address h (by omega) (by omega))

theorem State.reg_runStart_xp (s : State) : s.runStart.reg .xp = 0 := by simp [State.runStart]

theorem State.reg_runStart_ip (s : State) : s.runStart.reg .ip = 0 := by simp [State.runStart]

theorem State.reg_runStart_rp (s : State) : s.runStart.reg .rp = 0 := State.reg_setReg_same _ _ _

theorem State.reg_runStart_sp {s : State} (h : s.params.legal) : s.runStart.reg .sp = s.params.memSize - 1 := by
  simp [State.runStart, wrap_memSize_sub_one h]

/-- The registers that `run()` leaves alone (R252): R0 to R7, EXP and EIP. -/
theorem State.sameRegsExcept_runStart (s : State) : SameRegsExcept [.xp, .ip, .sp, .rp] s s.runStart := by
  intro r hr
  simp only [List.mem_cons, List.not_mem_nil, or_false, not_or] at hr
  obtain ⟨hxp, hip, hsp, hrp⟩ := hr
  simp only [State.runStart, State.reg_setReg_ne _ _ hrp, State.reg_setReg_ne _ _ hsp, State.reg_setReg_ne _ _ hip,
    State.reg_setReg_ne _ _ hxp, State.reg_setHalt]

/-- Settles O57: the four register writes are read back one by one, and the write to SP does not wrap at legal parameters;
the flags but Halt, memory, `INTID`, `out` and the continuation are untouched by definition. -/
theorem runStartsAtZero : Obligations.RunStartsAtZero := by
  intro s hlegal
  exact ⟨s.reg_runStart_xp, s.reg_runStart_ip, State.reg_runStart_sp hlegal, s.reg_runStart_rp,
    s.sameRegsExcept_runStart, rfl, fun _ => rfl, ⟨rfl, rfl, rfl⟩, fun _ => rfl⟩

end Sys2Proof.Machine
end

section
/-! The encoding (spec/30_encoding.md): the operands each of the eight formats reads, what the decoder answers on the Words of these
operands, on a proper part of them and on any Words at all, and with these the two round trips and the bounds of the two
tables. -/

namespace Sys2Proof

open Machine

/-! ### The bounds of the two tables -/

/-- R100, R105: the rows of the opcode map are numbered 0 to 22. -/
theorem shapeOf_eq_none_iff (w : Int) : shapeOf w = none ↔ (w < 0 ∨ 22 < w) := by
  simp only [shapeOf, opcodeTable, List.lookup_eq_none_iff, List.forall_mem_cons, bne_iff_ne, List.not_mem_nil,
    false_imp_iff, implies_true, and_true, ne_eq]
  omega

/-- R94, R104: the register indices are 0 to 13. -/
theorem regOfWord_eq_none_iff (w : Int) : regOfWord w = none ↔ NoRegister w := by
  simp only [regOfWord, regTable, List.lookup_eq_none_iff, List.forall_mem_cons, bne_iff_ne, List.not_mem_nil,
    false_imp_iff, implies_true, and_true, ne_eq]
  omega

/-- Settles O6: outside 0 to 13 no row of the table stands for the Word, and a row that does holds the register's own index. -/
theorem registerIndicesAreZeroToThirteen : Obligations.RegisterIndicesAreZeroToThirteen := by
  refine ⟨regOfWord_eq_none_iff, fun w r => ⟨fun h => (wordOfReg_of_regOfWord h).symm, ?_⟩⟩
  rintro rfl
  exact regOfWord_wordOfReg r

/-! ### The operands of a format -/

/-- The operands that the formats of R97 read, and the instruction that a row makes of them. -/
inductive Shape.Makes : Shape → List Operand → Instr → Prop
  | f0 (i : Instr) : Shape.Makes (.f0 i) [] i
  | fr (mk : Reg → Instr) (r : Reg) : Shape.Makes (.fr mk) [.reg r] (mk r)
  | fi (mk : Int → Instr) (v : Int) : Shape.Makes (.fi mk) [.imm v] (mk v)
  | fa (mk : Int → Instr) (a : Int) : Shape.Makes (.fa mk) [.addr a] (mk a)
  | fri (mk : Reg → Int → Instr) (r : Reg) (v : Int) : Shape.Makes (.fri mk) [.reg r, .imm v] (mk r v)
  | fra (mk : Reg → Int → Instr) (r : Reg) (a : Int) : Shape.Makes (.fra mk) [.reg r, .addr a] (mk r a)
  | frr (mk : Reg → Reg → Instr) (r q : Reg) : Shape.Makes (.frr mk) [.reg r, .reg q] (mk r q)
  | fs (mk : List Int → Instr) (text : List Int) : Shape.Makes (.fs mk) [.str text] (mk text)

/-- Every instruction is made of its operands by the row of its opcode number (R100). -/
theorem exists_shape_makes (i : Instr) : ∃ sh, shapeOf (opcodeOf i) = some sh ∧ sh.Makes i.operands i := by
  cases i with
  | int v => exact ⟨_, rfl, .fi .int v⟩
  | set rd v => exact ⟨_, rfl, .fri .set rd v⟩
  | load rd a => exact ⟨_, rfl, .fra .load rd a⟩
  | store rs a => exact ⟨_, rfl, .fra .store rs a⟩
  | move rd rs => exact ⟨_, rfl, .frr .move rd rs⟩
  | push r => exact ⟨_, rfl, .fr .push r⟩
  | pop r => exact ⟨_, rfl, .fr .pop r⟩
  | inc r => exact ⟨_, rfl, .fr .inc r⟩
  | dec r => exact ⟨_, rfl, .fr .dec r⟩
  | cstr text => exact ⟨_, rfl, .fs .cstr text⟩
  | test ra rb => exact ⟨_, rfl, .frr .test ra rb⟩
  | jump a => exact ⟨_, rfl, .fa .jump a⟩
  | jz a => exact ⟨_, rfl, .fa .jz a⟩
  | jnz a => exact ⟨_, rfl, .fa .jnz a⟩
  | je a => exact ⟨_, rfl, .fa .je a⟩
  | jne a => exact ⟨_, rfl, .fa .jne a⟩
  | call a => exact ⟨_, rfl, .fa .call a⟩
  | settrap a => exact ⟨_, rfl, .fa .settrap a⟩
  | halt | noop | ret | raise | resume => exact ⟨_, rfl, .f0 _⟩

/-- Each row of the opcode map makes instructions of its own number, and of the operands it read. -/
theorem opcodeOf_of_mem_opcodeTable :
    ∀ row ∈ opcodeTable, ∀ ops i, row.2.Makes ops i → opcodeOf i = row.1 ∧ i.operands = ops := by
  simp only [opcodeTable, List.forall_mem_cons, List.not_mem_nil, false_imp_iff, implies_true, and_true]
  and_intros <;> intro ops i hi <;> cases hi <;> exact ⟨rfl, rfl⟩

theorem opcodeOf_of_makes {w : Int} {sh : Shape} {ops : List Operand} {i : Instr} (hw : shapeOf w = some sh)
    (hi : sh.Makes ops i) : opcodeOf i = w ∧ i.operands = ops := by
  obtain ⟨before, after, htable, -⟩ := List.lookup_eq_some_iff.1 hw
  exact opcodeOf_of_mem_opcodeTable (w, sh) (by simp [htable]) ops i hi

/-! ### Words and well-formed operands -/

/-- A string operand holds no terminator (R99). -/
def Operand.Terminated : Operand → Prop
  | .str text => ∀ c ∈ text, c ≠ 0
  | _ => True

theorem Operand.terminated_of_wellFormed {p : Params} {o : Operand} (h : o.wellFormed p = true) : o.Terminated := by
  cases o with
  | str text =>
    intro c hc
    have hchar : isCharacter p c := of_decide_eq_true (List.all_eq_true.1 h c hc)
    exact hchar.2
  | reg _ | imm _ | addr _ => trivial

/-- An operand whose Words are Words of the width is well formed, but for a 0 in its text. -/
theorem Operand.wellFormed_of_isWord {p : Params} {o : Operand} (ht : o.Terminated)
    (hw : ∀ w ∈ encodeOperand o, isWord p w) : o.wellFormed p = true := by
  cases o with
  | reg r => rfl
  | imm v => exact decide_eq_true (hw v (List.mem_singleton_self v))
  | addr a => exact decide_eq_true (hw a (List.mem_singleton_self a))
  | str text =>
    refine List.all_eq_true.2 fun c hc => decide_eq_true ?_
    exact ⟨hw c (List.mem_append_left _ hc), ht c hc⟩

theorem Operand.isWord_of_wellFormed {p : Params} {o : Operand} (hp : p.legal) (h : o.wellFormed p = true) :
    ∀ w ∈ encodeOperand o, isWord p w := by
  cases o with
  | reg r =>
    intro w hw
    obtain ⟨h0, h13⟩ := wordOfReg_mem_range r
    rw [List.mem_singleton.1 hw]
    exact isWord_of_small hp (by omega) (by omega)
  | imm v =>
    intro w hw
    rw [List.mem_singleton.1 hw]
    exact of_decide_eq_true h
  | addr a =>
    intro w hw
    rw [List.mem_singleton.1 hw]
    exact of_decide_eq_true h
  | str text =>
    intro w hw
    rcases List.mem_append.1 hw with hw | hw
    · have hchar : isCharacter p w := of_decide_eq_true (List.all_eq_true.1 h w hw)
      exact hchar.1
    · rw [List.mem_singleton.1 hw]
      exact isWord_of_small hp (by decide) (by decide)

theorem opcodeOf_mem_range (i : Instr) : 0 ≤ opcodeOf i ∧ opcodeOf i ≤ 22 := by
  obtain ⟨sh, hsh, -⟩ := exists_shape_makes i
  have hnone := mt (shapeOf_eq_none_iff (opcodeOf i)).2 (by simp [hsh])
  omega

theorem isWord_encode {p : Params} {i : Instr} (hp : p.legal) (h : i.wellFormed p = true) :
    ∀ w ∈ encode i, isWord p w := by
  intro w hw
  rcases List.mem_cons.1 hw with rfl | hw
  · obtain ⟨h0, h22⟩ := opcodeOf_mem_range i
    exact isWord_of_small hp (by omega) (by omega)
  · obtain ⟨o, ho, hwo⟩ := List.mem_flatMap.1 hw
    exact Operand.isWord_of_wellFormed hp (List.all_eq_true.1 h o ho) w hwo

/-! ### Decoding what was encoded -/

/-- A row reads back the Words of its operands, whatever follows. -/
theorem decodeOperands_encode {sh : Shape} {ops : List Operand} {i : Instr} (hi : sh.Makes ops i)
    (ht : ∀ o ∈ ops, o.Terminated) (rest : List Int) :
    decodeOperands sh (ops.flatMap encodeOperand ++ rest) = .ok (i, rest) := by
  cases hi with
  | f0 | fi | fa => rfl
  | fr mk r => exact decodeOperands_fr mk r rest
  | frr mk r q => exact (decodeOperands_frr_cons mk r _).trans (decodeOperands_fr (mk r) q rest)
  | fri | fra =>
    simp only [List.flatMap_cons, encodeOperand, List.cons_append, decodeOperands, takeReg_wordOfReg]
    rfl
  | fs mk text =>
    have htext : takeString (text ++ 0 :: rest) = .ok (text, rest) := takeString_append text rest (ht (.str text) (by simp))
    simp only [List.flatMap_cons, encodeOperand, List.flatMap_nil, List.append_nil, List.append_assoc, List.cons_append,
      List.nil_append, decodeOperands, htext]
    rfl

/-- Decoding an encoding gives the instruction back; only a 0 inside a text would end it early. -/
theorem decode_encode {i : Instr} (ht : ∀ o ∈ i.operands, o.Terminated) (rest : List Int) :
    decode (encode i ++ rest) = .ok (i, rest) := by
  obtain ⟨sh, hsh, hi⟩ := exists_shape_makes i
  simp only [encode, List.cons_append, decode, hsh]
  exact decodeOperands_encode hi ht rest

theorem Instr.terminated_of_wellFormed {p : Params} {i : Instr} (h : i.wellFormed p = true) :
    ∀ o ∈ i.operands, o.Terminated :=
  fun o ho => Operand.terminated_of_wellFormed (List.all_eq_true.1 h o ho)

/-- Settles O1: the Words of each operand are Words, and each format reads its own operands back. -/
theorem decodeEncodeRoundTrip : Obligations.DecodeEncodeRoundTrip := by
  intro p i hp hi
  exact ⟨isWord_encode hp hi, decode_encode (Instr.terminated_of_wellFormed hi)⟩

/-! ### Encoding what was decoded -/

/-- What a successful operation made of two parts comes from. -/
theorem bind_eq_ok {ε α β : Type} {x : Except ε α} {f : α → Except ε β} {b : β} (h : (x >>= f) = .ok b) :
    ∃ a, x = .ok a ∧ f a = .ok b := by
  cases x with
  | error e => cases h
  | ok a => exact ⟨a, rfl, h⟩

/-- What a row can answer: an instruction made of operands whose Words it consumed. -/
theorem decodeOperands_ok {sh : Shape} {ws rest : List Int} {i : Instr} (h : decodeOperands sh ws = .ok (i, rest)) :
    ∃ ops, sh.Makes ops i ∧ (∀ o ∈ ops, o.Terminated) ∧ ws = ops.flatMap encodeOperand ++ rest := by
  cases sh with
  | f0 j =>
    cases h
    exact ⟨[], .f0 _, by simp, rfl⟩
  | fr mk =>
    obtain ⟨⟨r, ws₁⟩, hr, h⟩ := bind_eq_ok h
    cases h
    exact ⟨_, .fr mk r, by simp [Operand.Terminated], takeReg_ok hr⟩
  | fi mk =>
    obtain ⟨⟨v, ws₁⟩, hv, h⟩ := bind_eq_ok h
    cases h
    exact ⟨_, .fi mk v, by simp [Operand.Terminated], takeWord_ok hv⟩
  | fa mk =>
    obtain ⟨⟨a, ws₁⟩, ha, h⟩ := bind_eq_ok h
    cases h
    exact ⟨_, .fa mk a, by simp [Operand.Terminated], takeWord_ok ha⟩
  | fri mk =>
    obtain ⟨⟨r, ws₁⟩, hr, h⟩ := bind_eq_ok h
    obtain ⟨⟨v, ws₂⟩, hv, h⟩ := bind_eq_ok h
    cases h
    exact ⟨_, .fri mk r v, by simp [Operand.Terminated], by rw [takeReg_ok hr, takeWord_ok hv]; rfl⟩
  | fra mk =>
    obtain ⟨⟨r, ws₁⟩, hr, h⟩ := bind_eq_ok h
    obtain ⟨⟨a, ws₂⟩, ha, h⟩ := bind_eq_ok h
    cases h
    exact ⟨_, .fra mk r a, by simp [Operand.Terminated], by rw [takeReg_ok hr, takeWord_ok ha]; rfl⟩
  | frr mk =>
    obtain ⟨⟨r, ws₁⟩, hr, h⟩ := bind_eq_ok h
    obtain ⟨⟨q, ws₂⟩, hq, h⟩ := bind_eq_ok h
    cases h
    exact ⟨_, .frr mk r q, by simp [Operand.Terminated], by rw [takeReg_ok hr, takeReg_ok hq]; rfl⟩
  | fs mk =>
    obtain ⟨⟨text, ws₁⟩, ht, h⟩ := bind_eq_ok h
    obtain ⟨hws, hne⟩ := takeString_ok ht
    cases h
    exact ⟨_, .fs mk text, by simpa [Operand.Terminated] using hne, by simp [hws, encodeOperand]⟩

/-- What the decoder can answer: an instruction whose encoding it consumed. -/
theorem decode_ok {ws rest : List Int} {i : Instr} (h : decode ws = .ok (i, rest)) :
    (∀ o ∈ i.operands, o.Terminated) ∧ encode i ++ rest = ws := by
  cases ws with
  | nil => cases h
  | cons w ws =>
    simp only [decode] at h
    split at h
    · next sh hsh =>
      obtain ⟨ops, hi, ht, hws⟩ := decodeOperands_ok h
      obtain ⟨hop, hops⟩ := opcodeOf_of_makes hsh hi
      rw [encode, hop, hops, hws]
      exact ⟨ht, rfl⟩
    · cases h

theorem wellFormed_of_decode_ok {p : Params} {ws rest : List Int} {i : Instr} (hw : ∀ w ∈ ws, isWord p w)
    (h : decode ws = .ok (i, rest)) : i.wellFormed p = true := by
  obtain ⟨ht, hws⟩ := decode_ok h
  refine List.all_eq_true.2 fun o ho => Operand.wellFormed_of_isWord (ht o ho) fun w hwo => hw w ?_
  rw [← hws]
  exact List.mem_append_left _ (List.mem_cons_of_mem _ (List.mem_flatMap.2 ⟨o, ho, hwo⟩))

/-- Settles O2: each format consumes exactly the Words of the operands it read, and these are Words with no 0 inside a text. -/
theorem encodeDecodeRoundTrip : Obligations.EncodeDecodeRoundTrip := by
  intro p ws rest i hw h
  obtain ⟨-, hws⟩ := decode_ok h
  exact ⟨wellFormed_of_decode_ok hw h, hws⟩

/-! ### The length of an encoding -/

theorem length_encodeOperand (o : Operand) : (encodeOperand o).length = o.words := by
  cases o with
  | str text => simp [encodeOperand, Operand.words]
  | reg _ | imm _ | addr _ => rfl

theorem length_encode (i : Instr) : (encode i).length = i.size := by
  simp only [encode, List.length_cons, List.length_flatMap, length_encodeOperand, Instr.size, Nat.add_comm]

/-- Settles O3: each operand occupies the Words that R91 gives its kind. -/
theorem encodedLengthIsOnePlusOperandWords : Obligations.EncodedLengthIsOnePlusOperandWords := by
  refine ⟨length_encode, fun _ => rfl, fun text => ?_, rfl⟩
  rw [length_encode]
  rfl

/-- Settles O4: the decoder evaluates on each sample. -/
theorem sampleWordsDecode : Obligations.SampleWordsDecode :=
  ⟨rfl, rfl, rfl, rfl, rfl, rfl, rfl, rfl⟩

/-! ### Refusals of the decoder -/

theorem bind_ne_error {ε α β : Type} {x : Except ε α} {f : α → Except ε β} {e : ε} (hx : x ≠ .error e)
    (hf : ∀ a, f a ≠ .error e) : (x >>= f) ≠ .error e := by
  cases x with
  | error e' => exact fun h => hx (by cases h; rfl)
  | ok a => exact hf a

theorem takeWord_ne_unknownOpcode (ws : List Int) (w : Int) : takeWord ws ≠ .error (.unknownOpcode w) := by
  cases ws <;> simp [takeWord]

theorem takeReg_ne_unknownOpcode (ws : List Int) (w : Int) : takeReg ws ≠ .error (.unknownOpcode w) := by
  cases ws with
  | nil => simp [takeReg]
  | cons c ws =>
    simp only [takeReg]
    split <;> simp

theorem takeString_ne_unknownOpcode (ws : List Int) (w : Int) : takeString ws ≠ .error (.unknownOpcode w) := by
  induction ws with
  | nil => simp [takeString]
  | cons c ws ih =>
    simp only [takeString]
    split
    · simp
    · split
      · simp
      · next e he =>
        rw [he] at ih
        simpa using ih

/-- Once the row is found, no fault is one of the opcode. -/
theorem decodeOperands_ne_unknownOpcode (sh : Shape) (ws : List Int) (w : Int) :
    decodeOperands sh ws ≠ .error (.unknownOpcode w) := by
  cases sh with
  | f0 i => exact nofun
  | fr mk => exact bind_ne_error (takeReg_ne_unknownOpcode _ w) fun _ => nofun
  | fi mk => exact bind_ne_error (takeWord_ne_unknownOpcode _ w) fun _ => nofun
  | fa mk => exact bind_ne_error (takeWord_ne_unknownOpcode _ w) fun _ => nofun
  | fri mk =>
    exact bind_ne_error (takeReg_ne_unknownOpcode _ w) fun _ =>
      bind_ne_error (takeWord_ne_unknownOpcode _ w) fun _ => nofun
  | fra mk =>
    exact bind_ne_error (takeReg_ne_unknownOpcode _ w) fun _ =>
      bind_ne_error (takeWord_ne_unknownOpcode _ w) fun _ => nofun
  | frr mk =>
    exact bind_ne_error (takeReg_ne_unknownOpcode _ w) fun _ =>
      bind_ne_error (takeReg_ne_unknownOpcode _ w) fun _ => nofun
  | fs mk => exact bind_ne_error (takeString_ne_unknownOpcode _ w) fun _ => nofun

theorem decode_unknownOpcode_iff (w : Int) (ws : List Int) :
    decode (w :: ws) = .error (.unknownOpcode w) ↔ shapeOf w = none := by
  cases hsh : shapeOf w with
  | none => simp only [decode, hsh]
  | some sh =>
    simp only [decode, hsh, reduceCtorEq, iff_false]
    exact decodeOperands_ne_unknownOpcode sh ws w

/-- Settles O5: the only fault of the opcode is that the map has no row for it. -/
theorem opcodesAreZeroToTwentyTwo : Obligations.OpcodesAreZeroToTwentyTwo :=
  fun w ws => (decode_unknownOpcode_iff w ws).trans (shapeOf_eq_none_iff w)

/-- A row runs out of Words on every proper part of the Words of its operands (R95, R99). -/
theorem decodeOperands_cutOff {sh : Shape} {ops : List Operand} {i : Instr} {n : Nat} (hi : sh.Makes ops i)
    (ht : ∀ o ∈ ops, o.Terminated) (hn : n < (ops.flatMap encodeOperand).length) :
    decodeOperands sh ((ops.flatMap encodeOperand).take n) = .error .outOfWords := by
  cases hi with
  | f0 => exact absurd hn (Nat.not_lt_zero n)
  | fr | fi | fa =>
    obtain rfl : n = 0 := Nat.lt_one_iff.1 hn
    rfl
  | fri mk r _ | fra mk r _ =>
    obtain rfl | rfl : n = 0 ∨ n = 1 := by have : n < 2 := hn; omega
    · rfl
    · have hr : takeReg [wordOfReg r] = .ok (r, []) := takeReg_wordOfReg r []
      simp only [List.flatMap_cons, encodeOperand, List.cons_append, List.take_succ_cons, List.take_zero, decodeOperands,
        hr]
      rfl
  | frr mk r q =>
    obtain rfl | rfl : n = 0 ∨ n = 1 := by have : n < 2 := hn; omega
    · rfl
    · exact decodeOperands_frr_cons mk r []
  | fs mk text =>
    have hle : n ≤ text.length := by simpa [encodeOperand, Nat.lt_succ_iff] using hn
    have hcut : ([Operand.str text].flatMap encodeOperand).take n = text.take n := by
      simp [encodeOperand, List.take_append_of_le_length hle]
    have htext : takeString (text.take n) = .error .outOfWords :=
      takeString_unterminated _ fun c hc => ht (.str text) (by simp) c (List.mem_of_mem_take hc)
    simp only [hcut, decodeOperands, htext]
    rfl

/-- The decoder runs out of Words on every proper part of an encoding that holds the opcode Word. -/
theorem decode_take_encode {i : Instr} {n : Nat} (ht : ∀ o ∈ i.operands, o.Terminated) (h0 : 0 < n)
    (hn : n < (encode i).length) : decode ((encode i).take n) = .error .outOfWords := by
  obtain ⟨sh, hsh, hi⟩ := exists_shape_makes i
  obtain ⟨m, rfl⟩ : ∃ m, n = m + 1 := ⟨n - 1, by omega⟩
  simp only [encode, List.take_succ_cons, decode, hsh]
  exact decodeOperands_cutOff hi ht (Nat.lt_of_succ_lt_succ hn)

/-- The formats whose first operand is a register (R97). -/
def Shape.RegFirst : Shape → Prop
  | .fr _ | .fri _ | .fra _ | .frr _ => True
  | .f0 _ | .fi _ | .fa _ | .fs _ => False

theorem decodeOperands_badFirst {sh : Shape} (hsh : sh.RegFirst) {w : Int} (hw : NoRegister w) (more : List Int) :
    decodeOperands sh (w :: more) = .error (.badRegister w) := by
  cases sh with
  | fr mk => exact decodeOperands_fr_badRegister mk hw more
  | fri | fra =>
    simp only [decodeOperands, takeReg_of_noRegister hw]
    rfl
  | frr mk => exact decodeOperands_frr_badFirst mk hw more
  | f0 | fi | fa | fs => exact hsh.elim

theorem decode_badFirst {op w : Int} {sh : Shape} (hop : shapeOf op = some sh) (hsh : sh.RegFirst) (hw : NoRegister w)
    (more : List Int) : decode ([op, w] ++ more) = .error (.badRegister w) := by
  simp only [List.cons_append, decode, hop]
  exact decodeOperands_badFirst hsh hw more

theorem decode_badSecond {op w : Int} {mk : Reg → Reg → Instr} (hop : shapeOf op = some (.frr mk)) (r : Reg)
    (hw : NoRegister w) (more : List Int) : decode ([op, wordOfReg r, w] ++ more) = .error (.badRegister w) := by
  simp only [List.cons_append, decode, hop]
  exact decodeOperands_frr_badSecond mk r hw more

end Sys2Proof
end

section
/-! The step from the Words at XP (spec/40_core_loop.md R130, R133): it runs the instruction whose encoding stands there, and
where the fetches or the decoder fault it enters the trap with EIP at the opcode Word. -/

namespace Sys2Proof.Machine

/-- Settles O13: the first test of the step is the one of Halt. -/
theorem haltedMachineTakesNoStep : Obligations.HaltedMachineTakesNoStep := by
  intro s hh
  simp only [step, hh, if_true]

/-- Settles O10: by the step of what the fetched Words decode to. -/
theorem stepRunsTheDecodedInstruction : Obligations.StepRunsTheDecodedInstruction :=
  fun _ _ _ hh hd => step_of_decode_ok hh hd

/-! ### The instruction whose encoding stands at XP -/

/-- Settles O11: the fetches yield the encoding and some further Words, and decoding the encoding gives the instruction back. -/
theorem stepRunsTheEncodedInstruction : Obligations.StepRunsTheEncodedInstruction := by
  intro s i hi h
  obtain ⟨more, hcode⟩ := h.codeWords_eq
  have hdec : decode (State.codeWords s.params.memSize s.snapshot) = .ok (i, more) := by
    rw [hcode, decode_encode (Instr.terminated_of_wellFormed hi)]
  have hxp : s.snapshot.reg .xp = s.reg .xp := s.reg_snapshot_ne (by decide)
  rw [step_of_decode_ok h.1 hdec, State.advance, hxp, length_encode]
  rfl

/-! ### Traps of the fetches and of the decoder -/

/-- A trap taken from the snapshot saves the address of the opcode Word (R205). -/
theorem State.eip_of_trap_snapshot {s t : State} (h : t.reg .eip = s.snapshot.reg .ip) : t.reg .eip = s.reg .xp :=
  h.trans s.reg_snapshot_ip

/-- Settles O14: the first fetch already faults, so there is no Word to decode. -/
theorem opcodeFetchOutOfBoundsTraps : Obligations.OpcodeFetchOutOfBoundsTraps := by
  rintro s hh ⟨-, -, -, hint, -⟩ hv
  have hnone : State.codeWords s.params.memSize s.snapshot = [] := by
    refine State.codeWords_invalid ?_ _
    rwa [s.reg_snapshot_ne (by decide)]
  have hstep := step_of_decode_error (s := s) (e := .outOfWords) hh (by rw [hnone]; rfl)
  obtain ⟨heip, -, hflags, hregs, -⟩ := s.snapshot.raiseFault_invalidAddress
  have hidle : (s.snapshot.raiseFault .invalidAddress).flags.interrupt = false := by rw [hflags]; exact hint
  refine ⟨_, hstep.trans (finishStep_next_idle hidle), s.snapshot.raiseFault_invalidAddress, ?_,
    State.eip_of_trap_snapshot heip⟩
  exact (hregs .ip (by decide)).trans s.reg_snapshot_ip

/-- Settles O15: the decoder refuses exactly such a Word, and the fault is one of the opcode. -/
theorem unknownOpcodeTraps : Obligations.UnknownOpcodeTraps := by
  intro s w h hw
  obtain ⟨more, hcode⟩ := h.codeWords_eq
  have hdec : decode (State.codeWords s.params.memSize s.snapshot) = .error (.unknownOpcode w) := by
    rw [hcode]
    exact (opcodesAreZeroToTwentyTwo w more).2 hw
  have htrap := s.snapshot.raiseFault_unknownOpcode
  exact ⟨_, h.step_eq_raiseFault hdec, htrap, State.eip_of_trap_snapshot htrap.1⟩

/-- Settles O16: the decoder runs out of Words on every proper part of an encoding. -/
theorem instructionCutOffByMemoryEndTraps : Obligations.InstructionCutOffByMemoryEndTraps := by
  intro s i n hi h0 hn h
  obtain ⟨t, hstep, htrap⟩ := h.step_addressTrap (decode_take_encode (Instr.terminated_of_wellFormed hi) h0 hn)
  exact ⟨t, hstep, htrap, State.eip_of_trap_snapshot htrap.1⟩

/-- R100: the rows whose first operand is a register. -/
theorem exists_shape_regFirst {op : Int} (h : op ∈ ([3, 4, 5, 6, 7, 8, 9, 10, 12] : List Int)) :
    ∃ sh, shapeOf op = some sh ∧ sh.RegFirst := by
  simp only [List.mem_cons, List.not_mem_nil, or_false] at h
  rcases h with rfl | rfl | rfl | rfl | rfl | rfl | rfl | rfl | rfl <;> exact ⟨_, rfl, trivial⟩

/-- R100: the rows with two register operands. -/
theorem exists_shape_frr {op : Int} (h : op ∈ ([6, 12] : List Int)) : ∃ mk, shapeOf op = some (.frr mk) := by
  rcases List.mem_pair.1 h with rfl | rfl <;> exact ⟨_, rfl⟩

/-- Settles O17: the decoder answers a bad index as soon as it is met, whatever Words follow. -/
theorem badRegisterIndexTraps : Obligations.BadRegisterIndexTraps := by
  refine ⟨?first, ?second⟩
  case first =>
    intro s op w hop hw h
    obtain ⟨sh, hsh, hreg⟩ := exists_shape_regFirst hop
    obtain ⟨t, hstep, htrap⟩ := h.step_plainTrap_of_badRegister (decode_badFirst hsh hreg hw)
    exact ⟨t, hstep, htrap, State.eip_of_trap_snapshot htrap.1⟩
  case second =>
    intro s op w r hop hw h
    obtain ⟨mk, hsh⟩ := exists_shape_frr hop
    obtain ⟨t, hstep, htrap⟩ := h.step_plainTrap_of_badRegister (decode_badSecond hsh r hw)
    exact ⟨t, hstep, htrap, State.eip_of_trap_snapshot htrap.1⟩

end Sys2Proof.Machine
end

section
/-! The operations on the state and the meaning of each instruction (spec/20_memory.md, spec/41_data_movement.md to
spec/44_trap_interrupt_instr.md): the value written and the frame, for valid and for faulting addresses. -/

namespace Sys2Proof.Machine

/-! ### Register and memory writes, fetches -/

/-- What a register write changes, and all that it leaves alone (R31). -/
theorem State.setReg_frame (s : State) (r : Reg) (v : Int) :
    (s.setReg r v).reg r = v ∧ SameRegsExcept [r] s (s.setReg r v) ∧ (s.setReg r v).flags = s.flags ∧
    SameMemory s (s.setReg r v) ∧ SameRest s (s.setReg r v) := by
  refine ⟨s.reg_setReg_same r v, ?_, rfl, fun _ => rfl, rfl, rfl, rfl⟩
  intro q hq
  exact s.reg_setReg_ne v (List.ne_of_not_mem_cons hq)

/-- Settles O7: the register file reads back the write and nothing else of the state is touched. -/
theorem registerWriteChangesOneRegister : Obligations.RegisterWriteChangesOneRegister :=
  State.setReg_frame

/-- What a write of a cell does to every cell of a canonical memory. -/
theorem State.setCell_frame {s : State} (k : Nat) (v : Int) (h : s.mem.wf) :
    (s.setCell k v).cell k = v ∧ SameMemoryExcept k s (s.setCell k v) := by
  refine ⟨?_, fun j hj => ?_⟩
  · rw [State.cell_setCell s k v k h, if_pos rfl]
  · rw [State.cell_setCell s k v j h, if_neg hj]

/-- Settles O8: by the cases of the two memory primitives, and read after write. -/
theorem memoryAccessIsBoundsChecked : Obligations.MemoryAccessIsBoundsChecked := by
  intro s a v hwf
  refine ⟨State.memRead_valid, fun h => ⟨State.memRead_invalid h, State.memWrite_invalid v h⟩, fun h => ?_⟩
  obtain ⟨hcell, hframe⟩ := s.setCell_frame a.toNat v hwf
  have hread : (s.setCell a.toNat v).memRead a = .ok v := by rw [State.memRead_valid (s := s.setCell a.toNat v) h, hcell]
  exact ⟨_, State.memWrite_valid v h, hread, hframe, rfl, rfl, rfl, rfl, rfl⟩

/-- Settles O9: a fetch is a read at XP and an advance by one Word, which does not wrap at a valid address. -/
theorem fetchReadsAtXpAndAdvances : Obligations.FetchReadsAtXpAndAdvances := by
  intro s hp
  refine ⟨fun h => ⟨_, State.fetch_valid h, ?_, ?_, rfl, fun _ => rfl, rfl, rfl, rfl⟩, State.fetch_invalid⟩
  · rw [State.reg_advance_xp]
    exact State.wrap_succ hp h
  · intro r hr
    exact s.reg_advance_ne 1 (List.ne_of_not_mem_cons hr)

/-! ### The meanings of `load` and `store` -/

theorem exec_load_valid {s : State} {a : Int} (rd : Reg) (h : s.valid a) :
    exec (.load rd a) s = .next (s.setReg rd (s.cell a.toNat)) := by
  simp only [exec, execLoad, State.memRead_valid h]

theorem exec_load_invalid {s : State} {a : Int} (rd : Reg) (h : ¬ s.valid a) :
    exec (.load rd a) s = .next (s.raiseFault .invalidAddress) := by
  simp only [exec, execLoad, State.memRead_invalid h]

theorem exec_store_valid {s : State} {a : Int} (rs : Reg) (h : s.valid a) :
    exec (.store rs a) s = .next (s.setCell a.toNat (s.reg rs)) := by
  simp only [exec, execStore, State.memWrite_valid _ h]

theorem exec_store_invalid {s : State} {a : Int} (rs : Reg) (h : ¬ s.valid a) :
    exec (.store rs a) s = .next (s.raiseFault .invalidAddress) := by
  simp only [exec, execStore, State.memWrite_invalid _ h]

/-- Settles O34: a read of a valid address is a register write, any other an address fault. -/
theorem loadReadsTheCellOrTraps : Obligations.LoadReadsTheCellOrTraps := by
  intro s rd a
  refine ⟨fun h => ⟨_, exec_load_valid rd h, s.setReg_frame rd _⟩, fun h => ?_⟩
  exact ⟨_, exec_load_invalid rd h, s.raiseFault_invalidAddress⟩

/-- Settles O35: a write of a valid address is a write of that cell, any other an address fault. -/
theorem storeWritesTheCellOrTraps : Obligations.StoreWritesTheCellOrTraps := by
  intro s rs a hwf
  refine ⟨fun h => ?_, fun h => ⟨_, exec_store_invalid rs h, s.raiseFault_invalidAddress⟩⟩
  obtain ⟨hcell, hframe⟩ := s.setCell_frame a.toNat (s.reg rs) hwf
  exact ⟨_, exec_store_valid rs h, hcell, hframe, fun _ _ => rfl, rfl, rfl, rfl, rfl⟩

/-- Settles O18: the fetch reads the cell just written, at the XP that a cell write leaves alone. -/
theorem storedWordIsFetchedNext : Obligations.StoredWordIsFetchedNext := by
  rintro s rs a hwf hv rfl
  obtain ⟨hcell, -⟩ := s.setCell_frame (s.reg .xp).toNat (s.reg rs) hwf
  have hfetch := State.fetch_valid (s := s.setCell (s.reg .xp).toNat (s.reg rs)) hv
  rw [State.reg_setCell, hcell] at hfetch
  exact ⟨_, _, exec_store_valid rs hv, hfetch⟩

/-! ### The meanings of `push` and `pop` -/

/-- The Word below a valid address does not wrap: at 0 it is -1, a Word at every legal width. -/
theorem State.wrap_pred {s : State} {a : Int} (hs : s.params.legal) (h : s.valid a) :
    wrap s.params (a - 1) = a - 1 := by
  obtain ⟨h0, hN⟩ := h
  have hhalf := hs.half_ge
  have ha := isWord_iff.1 (isWord_of_address hs h0 hN.le)
  exact wrap_of_isWord (isWord_iff.2 (by omega))

/-- Settles O36: the store at SP and then the write of SP, or the address fault of the store. -/
theorem pushStoresThenLowersSp : Obligations.PushStoresThenLowersSp := by
  intro s rs hp hwf
  refine ⟨fun h => ?_, fun h => ⟨_, exec_push_invalid rs h, s.raiseFault_invalidAddress⟩⟩
  obtain ⟨hcell, hframe⟩ := s.setCell_frame (s.reg .sp).toNat (s.reg rs) hwf
  refine ⟨_, exec_push_valid rs h, hcell, hframe, ?_, ?_, rfl, rfl, rfl, rfl⟩
  · rw [State.reg_setReg_same, State.wrap_pred hp h]
  · intro r hr
    exact State.reg_setReg_ne _ _ (List.ne_of_not_mem_cons hr)

/-- Settles O37: SP is raised first and the destination written last, or the address fault of the read finds SP raised. -/
theorem popRaisesSpThenLoads : Obligations.PopRaisesSpThenLoads := by
  intro s rd
  refine ⟨fun h => ?_, fun h => ⟨_, exec_pop_invalid rd h, s.raiseSp.raiseFault_invalidAddress⟩⟩
  refine ⟨_, exec_pop_valid rd h, State.reg_setReg_same _ _ _, ?_, ?_, rfl, fun _ => rfl, rfl, rfl, rfl⟩
  · intro hne
    rw [State.reg_setReg_ne _ _ hne.symm, State.reg_raiseSp_sp]
  · intro r hr
    obtain ⟨hrd, hsp⟩ := not_or.1 (mt List.mem_cons.2 hr)
    rw [State.reg_setReg_ne _ _ hrd, State.reg_raiseSp_ne _ (List.ne_of_not_mem_cons hsp)]

/-- The state after a `push` that does not fault. -/
def State.pushed (s : State) (rs : Reg) : State :=
  (s.setCell (s.reg .sp).toNat (s.reg rs)).setReg .sp (wrap s.params (s.reg .sp - 1))

/-- Raising the lowered SP gives the old one back. -/
theorem State.raised_sp_pushed {s : State} (rs : Reg) (hp : s.params.legal) (hv : s.valid (s.reg .sp)) :
    wrap (s.pushed rs).params ((s.pushed rs).reg .sp + 1) = s.reg .sp :=
  calc
    wrap s.params ((s.pushed rs).reg .sp + 1)
      = wrap s.params (wrap s.params (s.reg .sp - 1) + 1) := by rw [State.pushed, State.reg_setReg_same]
    _ = wrap s.params (s.reg .sp) := by rw [wrap_wrap_add, sub_add_cancel]
    _ = s.reg .sp := wrap_of_isWord (isWord_of_address hp hv.1 hv.2.le)

/-- Settles O38: raising the lowered SP gives the old one back, so `pop` reads the cell that `push` wrote. -/
theorem pushThenPopRestores : Obligations.PushThenPopRestores := by
  intro s r hp hwf hv
  obtain ⟨hcell, hframe⟩ := s.setCell_frame (s.reg .sp).toNat (s.reg r) hwf
  have hsp := State.raised_sp_pushed r hp hv
  have hpop : exec (.pop r) (s.pushed r) = .next ((s.pushed r).raiseSp.setReg r (s.reg r)) := by
    rw [exec_pop_valid r (by rw [hsp]; exact hv), hsp, State.pushed, State.cell_setReg, hcell]
  refine ⟨_, _, exec_push_valid r hv, hpop, ?_, hcell, hframe, rfl, rfl, rfl, rfl⟩
  intro q _
  by_cases hr : q = r
  · rw [hr, State.reg_setReg_same]
  · rw [State.reg_setReg_ne _ _ hr]
    by_cases hq : q = .sp
    · rw [hq, State.reg_raiseSp_sp, hsp]
    · rw [State.reg_raiseSp_ne _ hq, State.pushed, State.reg_setReg_ne _ _ hq, State.reg_setCell]

/-! ### The meanings that write one register -/

/-- Settles O33: each is one register write. -/
theorem setAndMoveWriteTheDestination : Obligations.SetAndMoveWriteTheDestination :=
  fun s rd rs v => ⟨⟨_, rfl, s.setReg_frame rd v⟩, ⟨_, rfl, s.setReg_frame rd (s.reg rs)⟩⟩

/-- `wrap` is periodic in the number of Words (R6). -/
theorem wrap_add_modulus (p : Params) (v : Int) : wrap p (v + (2 * p.half : Nat)) = wrap p v :=
  Int.add_bmod_right v _

/-- R165, R6: adding one wraps at the greatest Word only. -/
theorem wrap_inc {p : Params} {v : Int} (h : isWord p v) :
    wrap p (v + 1) = if v = p.maxWord then p.minWord else v + 1 := by
  have hpos := p.half_pos
  rw [isWord_iff] at h
  split
  · next hv =>
    have hmin : v + 1 = p.minWord + (2 * p.half : Nat) := by simp only [hv, Params.maxWord, Params.minWord]; omega
    rw [hmin, wrap_add_modulus]
    exact wrap_of_isWord (by simp only [isWord, Params.maxWord, Params.minWord]; omega)
  · next hv =>
    rw [Params.maxWord] at hv
    exact wrap_of_isWord (isWord_iff.2 (by omega))

/-- R166, R6: subtracting one wraps at the least Word only. -/
theorem wrap_dec {p : Params} {v : Int} (h : isWord p v) :
    wrap p (v - 1) = if v = p.minWord then p.maxWord else v - 1 := by
  have hpos := p.half_pos
  rw [isWord_iff] at h
  split
  · next hv =>
    have hmax : v - 1 + (2 * p.half : Nat) = p.maxWord := by simp only [hv, Params.maxWord, Params.minWord]; omega
    rw [← wrap_add_modulus, hmax]
    exact wrap_of_isWord (by simp only [isWord, Params.maxWord, Params.minWord]; omega)
  · next hv =>
    rw [Params.minWord] at hv
    exact wrap_of_isWord (isWord_iff.2 (by omega))

/-- Settles O39: each is one register write, of a sum that wraps at one end of the range. -/
theorem incAndDecWrap : Obligations.IncAndDecWrap := by
  intro s r _ hw
  rw [← wrap_inc hw, ← wrap_dec hw]
  exact ⟨⟨_, rfl, s.setReg_frame r _⟩, ⟨_, rfl, s.setReg_frame r _⟩⟩

/-- Settles O43: one register write. -/
theorem settrapWritesExp : Obligations.SettrapWritesExp :=
  fun s a => ⟨_, rfl, s.setReg_frame .exp a⟩

/-! ### The meanings of the control transfers -/

/-- A jump under a condition writes XP or nothing. -/
theorem State.jumpIf_frame (s : State) (taken : Bool) (a : Int) :
    (s.jumpIf taken a).reg .xp = (if taken = true then a else s.reg .xp) ∧ SameRegsExcept [.xp] s (s.jumpIf taken a) ∧
    (s.jumpIf taken a).flags = s.flags ∧ SameMemory s (s.jumpIf taken a) ∧ SameRest s (s.jumpIf taken a) := by
  cases taken with
  | false => exact ⟨rfl, fun _ _ => rfl, rfl, fun _ => rfl, rfl, rfl, rfl⟩
  | true => exact s.setReg_frame .xp a

/-- Settles O41: each of the five is a jump under the condition its meaning reads from the flags. -/
theorem jumpsWriteOnlyXp : Obligations.JumpsWriteOnlyXp := by
  intro s a
  have hnot : ∀ b : Bool, (if b = true then s.reg .xp else a) = if (!b) = true then a else s.reg .xp := by
    intro b
    cases b <;> rfl
  rw [hnot, hnot]
  exact ⟨⟨_, rfl, s.jumpIf_frame true a⟩, ⟨_, rfl, s.jumpIf_frame s.flags.zero a⟩,
    ⟨_, rfl, s.jumpIf_frame (!s.flags.zero) a⟩, ⟨_, rfl, s.jumpIf_frame s.flags.equal a⟩,
    ⟨_, rfl, s.jumpIf_frame (!s.flags.equal) a⟩⟩

/-- Settles O42: `call` writes RP and then XP, `ret` XP alone. -/
theorem callAndRetGoThroughRp : Obligations.CallAndRetGoThroughRp := by
  intro s a
  refine ⟨⟨_, rfl, ?_, State.reg_setReg_same _ _ _, ?_, rfl, fun _ => rfl, rfl, rfl, rfl⟩,
    ⟨_, rfl, s.setReg_frame .xp _⟩⟩
  · rw [State.reg_setReg_ne _ _ (by decide), State.reg_setReg_same]
  · intro r hr
    obtain ⟨hrp, hxp⟩ := not_or.1 (mt List.mem_cons.2 hr)
    rw [State.reg_setReg_ne _ _ (List.ne_of_not_mem_cons hxp), State.reg_setReg_ne _ _ hrp]

/-! ### The meanings that write flags, and those of traps and interrupts -/

/-- Settles O32: `halt` writes one flag; the other two answer the state they were given. -/
theorem haltNoopAndCstr : Obligations.HaltNoopAndCstr :=
  fun _ => ⟨⟨_, rfl, rfl, fun _ _ => rfl, fun _ => rfl, rfl, rfl, rfl⟩, rfl, fun _ => rfl⟩

/-- Settles O40: `test` writes what the comparison of the two registers says, flag by flag. -/
theorem testWritesFourFlags : Obligations.TestWritesFourFlags :=
  fun _ _ _ => ⟨_, rfl, compareFlags_zero_iff _ _ _, compareFlags_equal_iff _ _ _, compareFlags_greater_iff _ _ _,
    compareFlags_less_iff _ _ _, compareFlags_some _ _ _, compareFlags_compareOk _ _ _, rfl, rfl, rfl, rfl,
    fun _ _ => rfl, fun _ => rfl, rfl, rfl, rfl⟩

/-- Settles O44: `raise` is trap entry. -/
theorem raiseEntersTheTrap : Obligations.RaiseEntersTheTrap :=
  fun s => ⟨_, rfl, s.trapEntry_plainTrap⟩

/-- Settles O45: `resume` is the return from a trap. -/
theorem resumeGoesToEip : Obligations.ResumeGoesToEip := by
  intro s
  obtain ⟨hxp, hflags, hregs, -, hrest⟩ := s.trapReturn_frame
  exact ⟨_, rfl, hxp, hflags, hregs, fun _ => rfl, hrest⟩

/-- Settles O46: the latch and one flag are written; the service is left to phase 4. -/
theorem intLatchesTheRequest : Obligations.IntLatchesTheRequest :=
  fun _ _ => ⟨_, rfl, rfl, rfl, fun _ _ => rfl, fun _ => rfl, rfl, rfl⟩

end Sys2Proof.Machine
end

section
/-! What an instruction can do, said once: the register and cell writes its meaning is made of, the trap it may end in, and the four
meanings that write a flag of their own. The rules of the whole machine follow from this and from what phase 4 leaves alone. -/

namespace Sys2Proof.Machine

/-! ### The writes of an instruction -/

/-- What the operands and the state must meet for every written value to be a Word (10_state.md R20). -/
def State.HoldsWords (s : State) (i : Instr) : Prop :=
  s.params.legal ∧ s.wordsOk ∧ i.wellFormed s.params = true

/-- `Wrote i s t`: `t` is `s` after writes of Words to registers and cells that the rules give to `i` (10_state.md R32,
20_memory.md R62). -/
inductive Wrote (i : Instr) (s : State) : State → Prop
  | nothing : Wrote i s s
  | reg {u : State} {r : Reg} {v : Int} (hu : Wrote i s u) (hr : r ∈ mayWrite i)
      (hv : s.HoldsWords i → isWord s.params v) : Wrote i s (u.setReg r v)
  | cell {u : State} {a v : Int} (hu : Wrote i s u) (hk : mayStore s i = some a.toNat) (ha : s.valid a)
      (hv : s.HoldsWords i → isWord s.params v) : Wrote i s (u.setCell a.toNat v)

/-- `Executed i s t`: `t` is a result that the meaning of `i` can have in `s`. -/
inductive Executed : Instr → State → State → Prop
  | wrote {i : Instr} {s t : State} (hw : Wrote i s t) (hi : i ≠ .halt) : Executed i s t
  | trapped {i : Instr} {s u : State} (c : TrapCause) (hw : Wrote i s u) (hip : u.reg .ip = s.reg .ip)
      (hexp : u.reg .exp = s.reg .exp) (heip : .eip ∈ mayWrite i) (hxp : .xp ∈ mayWrite i) :
      Executed i s (u.raiseFault c)
  | halted (s : State) : Executed .halt s (s.setHalt true)
  | compared (ra rb : Reg) (s : State) :
      Executed (.test ra rb) s (s.setFlags (compareFlags s.flags (s.reg ra) (s.reg rb)))
  | resumed (s : State) : Executed .resume s s.trapReturn
  | requested (v : Int) (s : State) : Executed (.int v) s ((s.setIntid v).setInterrupt true)

theorem Executed.setReg {i : Instr} {s : State} {r : Reg} {v : Int} (hr : r ∈ mayWrite i)
    (hv : s.HoldsWords i → isWord s.params v) : Executed i s (s.setReg r v) := by
  refine .wrote (.reg .nothing hr hv) ?_
  rintro rfl
  exact absurd hr List.not_mem_nil

theorem Executed.jumpIf {i : Instr} {s : State} {a : Int} (taken : Bool) (hxp : .xp ∈ mayWrite i)
    (ha : s.HoldsWords i → isWord s.params a) : Executed i s (s.jumpIf taken a) := by
  cases taken with
  | true => exact .setReg hxp ha
  | false =>
    refine .wrote .nothing ?_
    rintro rfl
    exact absurd hxp List.not_mem_nil

/-- An immediate or address operand of a well-formed instruction is a Word (R105). -/
theorem State.HoldsWords.isWord_operand {s : State} {i : Instr} {v : Int} (h : s.HoldsWords i)
    (hv : .imm v ∈ i.operands ∨ .addr v ∈ i.operands) : isWord s.params v := by
  obtain ⟨-, -, hi⟩ := h
  rcases hv with hv | hv
  · exact of_decide_eq_true (List.all_eq_true.1 hi _ hv)
  · exact of_decide_eq_true (List.all_eq_true.1 hi _ hv)

theorem State.HoldsWords.isWord_reg {s : State} {i : Instr} (h : s.HoldsWords i) (r : Reg) :
    isWord s.params (s.reg r) :=
  h.2.1.1 r

theorem State.HoldsWords.isWord_cell {s : State} {i : Instr} (h : s.HoldsWords i) (k : Nat) :
    isWord s.params (s.cell k) :=
  State.isWord_cell h.1 h.2.1 k

/-- What the meaning of an instruction can do, instruction by instruction. -/
theorem exec_cases {i : Instr} {s t : State} (h : exec i s = .next t) : Executed i s t := by
  cases i with
  | halt => cases h; exact .halted s
  | int v => cases h; exact .requested v s
  | noop | cstr => cases h; exact .wrote .nothing nofun
  | set _ v | settrap v =>
    cases h; exact .setReg (by simp [mayWrite]) fun hs => hs.isWord_operand (by simp [Instr.operands])
  | move rd rs => cases h; exact .setReg (by simp [mayWrite]) fun hs => hs.isWord_reg rs
  | inc | dec => cases h; exact .setReg (by simp [mayWrite]) fun _ => isWord_wrap _ _
  | load rd a =>
    by_cases hv : s.valid a
    · rw [exec_load_valid rd hv] at h
      cases h
      exact .setReg (by simp [mayWrite]) fun hs => hs.isWord_cell _
    · rw [exec_load_invalid rd hv] at h
      cases h
      exact .trapped _ .nothing rfl rfl (by simp [mayWrite]) (by simp [mayWrite])
  | store rs a =>
    by_cases hv : s.valid a
    · rw [exec_store_valid rs hv] at h
      cases h
      exact .wrote (.cell .nothing rfl hv fun hs => hs.isWord_reg rs) nofun
    · rw [exec_store_invalid rs hv] at h
      cases h
      exact .trapped _ .nothing rfl rfl (by simp [mayWrite]) (by simp [mayWrite])
  | push rs =>
    by_cases hv : s.valid (s.reg .sp)
    · rw [exec_push_valid rs hv] at h
      cases h
      have hcell : Wrote (.push rs) s (s.setCell (s.reg .sp).toNat (s.reg rs)) :=
        .cell .nothing rfl hv fun hs => hs.isWord_reg rs
      exact .wrote (.reg hcell (by simp [mayWrite]) fun _ => isWord_wrap _ _) nofun
    · rw [exec_push_invalid rs hv] at h
      cases h
      exact .trapped _ .nothing rfl rfl (by simp [mayWrite]) (by simp [mayWrite])
  | pop rd =>
    have hraise : Wrote (.pop rd) s s.raiseSp := .reg .nothing (by simp [mayWrite]) fun _ => isWord_wrap _ _
    by_cases hv : s.valid (wrap s.params (s.reg .sp + 1))
    · rw [exec_pop_valid rd hv] at h
      cases h
      exact .wrote (.reg hraise (by simp [mayWrite]) fun hs => hs.isWord_cell _) nofun
    · rw [exec_pop_invalid rd hv] at h
      cases h
      exact .trapped _ hraise (s.reg_raiseSp_ne (by decide)) (s.reg_raiseSp_ne (by decide)) (by simp [mayWrite])
        (by simp [mayWrite])
  | test ra rb => cases h; exact .compared ra rb s
  | jump a =>
    cases h; exact .jumpIf true (by simp [mayWrite]) fun hs => hs.isWord_operand (by simp [Instr.operands])
  | jz a | jnz a | je a | jne a =>
    cases h; exact .jumpIf _ (by simp [mayWrite]) fun hs => hs.isWord_operand (by simp [Instr.operands])
  | call a =>
    cases h
    have hrp : Wrote (.call a) s (s.setReg .rp (s.reg .xp)) :=
      .reg .nothing (by simp [mayWrite]) fun hs => hs.isWord_reg .xp
    exact .wrote (.reg hrp (by simp [mayWrite]) fun hs => hs.isWord_operand (by simp [Instr.operands])) nofun
  | ret => cases h; exact .setReg (by simp [mayWrite]) fun hs => hs.isWord_reg .rp
  | raise => cases h; exact .trapped .unknownOpcode .nothing rfl rfl (by simp [mayWrite]) (by simp [mayWrite])
  | resume => cases h; exact .resumed s

/-! ### What the writes keep -/

theorem Wrote.flags_eq {i : Instr} {s t : State} (h : Wrote i s t) : t.flags = s.flags := by
  induction h with
  | nothing => rfl
  | reg _ _ _ ih => exact ih
  | cell _ _ _ _ ih => exact ih

theorem Wrote.sameRest {i : Instr} {s t : State} (h : Wrote i s t) : SameRest s t := by
  induction h with
  | nothing => exact ⟨rfl, rfl, rfl⟩
  | reg _ _ _ ih => exact ih
  | cell _ _ _ _ ih => exact ih

theorem Wrote.sameRegsExcept {i : Instr} {s t : State} (h : Wrote i s t) : SameRegsExcept (mayWrite i) s t := by
  induction h with
  | nothing => exact fun _ _ => rfl
  | reg _ hr _ ih =>
    intro q hq
    have hne : q ≠ _ := fun he => hq (he ▸ hr)
    exact (State.reg_setReg_ne _ _ hne).trans (ih q hq)
  | cell _ _ _ _ ih => exact ih

theorem Wrote.cells {i : Instr} {s t : State} (h : Wrote i s t) (hwf : s.mem.wf) :
    t.mem.wf ∧ ∀ k, mayStore s i ≠ some k → t.cell k = s.cell k := by
  induction h with
  | nothing => exact ⟨hwf, fun _ _ => rfl⟩
  | reg _ _ _ ih => exact ih
  | @cell u a v _ hk _ _ ih =>
    obtain ⟨huwf, hcells⟩ := ih
    refine ⟨Memory.wf_write _ _ _ huwf, fun k hne => ?_⟩
    have hka : k ≠ a.toNat := fun he => hne (he ▸ hk)
    exact ((u.setCell_frame a.toNat v huwf).2 k hka).trans (hcells k hne)

theorem Wrote.memOk {i : Instr} {s t : State} (h : Wrote i s t) (hm : s.memOk) : t.memOk := by
  induction h with
  | nothing => exact hm
  | reg _ _ _ ih => exact ih
  | @cell u a v hu _ ha _ ih =>
    obtain ⟨-, -, hparams⟩ := hu.sameRest
    exact State.memOk_setCell v ih (by rw [State.valid, hparams]; exact ha)

theorem Wrote.wordsOk {i : Instr} {s t : State} (h : Wrote i s t) (hs : s.HoldsWords i) : t.wordsOk := by
  induction h with
  | nothing => exact hs.2.1
  | @reg u r v hu _ hv ih =>
    obtain ⟨-, -, hparams⟩ := hu.sameRest
    exact State.wordsOk_setReg r ih (by rw [hparams]; exact hv hs)
  | @cell u a v hu _ _ hv ih =>
    obtain ⟨-, -, hparams⟩ := hu.sameRest
    exact State.wordsOk_setCell _ ih (by rw [hparams]; exact hv hs)

end Sys2Proof.Machine
end

section
/-! The rules of the whole machine (spec/10_state.md, spec/20_memory.md, spec/60_exceptions.md): for each, what an instruction keeps
of the state it starts from, what phase 4 keeps, and the two together for a step. -/

namespace Sys2Proof.Machine

/-! ### What an instruction keeps -/

theorem Executed.sameRegsExcept {i : Instr} {s t : State} (h : Executed i s t) : SameRegsExcept (mayWrite i) s t := by
  cases h with
  | wrote hw _ => exact hw.sameRegsExcept
  | @trapped _ _ u c hw _ _ heip hxp =>
    intro r hr
    obtain ⟨-, -, hregs, -⟩ := u.raiseFault_frame c
    have hr' : r ∉ [Reg.eip, Reg.xp] := by
      rw [List.mem_pair]
      rintro (rfl | rfl)
      · exact hr heip
      · exact hr hxp
    exact (hregs r hr').trans (hw.sameRegsExcept r hr)
  | halted | compared | requested => exact fun _ _ => rfl
  | resumed =>
    obtain ⟨-, -, hregs, -⟩ := s.trapReturn_frame
    exact hregs

theorem Executed.cells {i : Instr} {s t : State} (h : Executed i s t) (hwf : s.mem.wf) {k : Nat}
    (hk : mayStore s i ≠ some k) : t.cell k = s.cell k := by
  cases h with
  | wrote hw _ => exact (hw.cells hwf).2 k hk
  | @trapped _ _ u c hw _ _ _ _ =>
    obtain ⟨-, -, -, hmem, -⟩ := u.raiseFault_frame c
    rw [State.cell, hmem]
    exact (hw.cells hwf).2 k hk
  | halted | compared | requested | resumed => rfl

theorem Executed.out_params {i : Instr} {s t : State} (h : Executed i s t) : t.out = s.out ∧ t.params = s.params := by
  cases h with
  | wrote hw _ => exact hw.sameRest.2
  | @trapped _ _ u c hw _ _ _ _ =>
    obtain ⟨-, hout, hparams⟩ := hw.sameRest
    obtain ⟨-, -, -, -, ⟨-, hout', hparams'⟩, -⟩ := u.raiseFault_frame c
    exact ⟨hout'.trans hout, hparams'.trans hparams⟩
  | halted | compared | requested | resumed => exact ⟨rfl, rfl⟩

/-- Only `int` writes the latch and makes a request (R41, R44). -/
theorem Executed.request {i : Instr} {s t : State} (h : Executed i s t) :
    (∃ v, i = .int v ∧ t = (s.setIntid v).setInterrupt true) ∨
      t.intid = s.intid ∧ t.flags.interrupt = s.flags.interrupt := by
  cases h with
  | wrote hw _ => exact .inr ⟨hw.sameRest.1, by rw [hw.flags_eq]⟩
  | @trapped _ _ u c hw _ _ _ _ =>
    obtain ⟨hintid, -, -⟩ := hw.sameRest
    obtain ⟨-, -, -, -, ⟨hintid', -, -⟩, -, -, hint, -⟩ := u.raiseFault_frame c
    exact .inr ⟨hintid'.trans hintid, by rw [hint, hw.flags_eq]⟩
  | halted | compared | resumed => exact .inr ⟨rfl, rfl⟩
  | requested v => exact .inl ⟨v, rfl, rfl⟩

theorem Executed.halt_iff {i : Instr} {s t : State} (h : Executed i s t) (hs : s.flags.halt = false) :
    t.flags.halt = true ↔ i = .halt := by
  cases h with
  | wrote hw hi => simp [hw.flags_eq, hs, hi]
  | @trapped _ _ u c hw _ _ heip _ =>
    obtain ⟨-, -, -, -, -, -, hhalt, -⟩ := u.raiseFault_frame c
    rw [hhalt, hw.flags_eq, hs]
    refine iff_of_false nofun ?_
    rintro rfl
    exact absurd heip List.not_mem_nil
  | halted => exact iff_of_true rfl rfl
  | compared | resumed | requested => exact iff_of_false (fun ht => by cases hs.symm.trans ht) nofun

/-- R42: InvalidAddress is sticky. -/
theorem Executed.invalidAddress {i : Instr} {s t : State} (h : Executed i s t)
    (hs : s.flags.invalidAddress = true) : t.flags.invalidAddress = true := by
  cases h with
  | wrote hw _ => rw [hw.flags_eq, hs]
  | @trapped _ _ u c hw _ _ _ _ =>
    obtain ⟨-, -, -, -, -, -, -, -, hsticky, -⟩ := u.raiseFault_frame c
    exact hsticky (by rw [hw.flags_eq, hs])
  | halted | compared | resumed | requested => exact hs

/-- The four flags of a comparison read in `t` as in `s`. -/
def SameCompareFlags (s t : State) : Prop :=
  t.flags.zero = s.flags.zero ∧ t.flags.equal = s.flags.equal ∧ t.flags.greater = s.flags.greater ∧
  t.flags.less = s.flags.less

theorem SameCompareFlags.trans {s t u : State} (h : SameCompareFlags s t) (h' : SameCompareFlags t u) :
    SameCompareFlags s u := by
  obtain ⟨hz, he, hg, hl⟩ := h
  obtain ⟨hz', he', hg', hl'⟩ := h'
  exact ⟨hz'.trans hz, he'.trans he, hg'.trans hg, hl'.trans hl⟩

theorem State.raiseFault_compareFlags (s : State) (c : TrapCause) : SameCompareFlags s (s.raiseFault c) := by
  obtain ⟨-, -, -, -, -, -, -, -, -, hcompare⟩ := s.raiseFault_frame c
  exact hcompare

theorem State.interruptPhase_compareFlags (s : State) : SameCompareFlags s s.interruptPhase := by
  obtain ⟨-, -, -, -, -, -, -, -, hcompare⟩ := s.interruptPhase_frame
  exact hcompare

/-- Only `test` writes the flags of a comparison (R168). -/
theorem Executed.compareFlags {i : Instr} {s t : State} (h : Executed i s t) :
    (∃ ra rb, i = .test ra rb ∧ t.flags.compareOk) ∨ SameCompareFlags s t := by
  cases h with
  | wrote hw _ => exact .inr (by simp [SameCompareFlags, hw.flags_eq])
  | @trapped _ _ u c hw _ _ _ _ =>
    have hu : SameCompareFlags s u := by simp [SameCompareFlags, hw.flags_eq]
    exact .inr (hu.trans (u.raiseFault_compareFlags c))
  | halted | resumed | requested => exact .inr ⟨rfl, rfl, rfl, rfl⟩
  | compared ra rb => exact .inl ⟨ra, rb, rfl, compareFlags_compareOk _ _ _⟩

/-- Only a trap newly sets Exception (R36). -/
theorem Executed.exception {i : Instr} {s t : State} (h : Executed i s t) (hs : s.flags.exception = false)
    (ht : t.flags.exception = true) : t.reg .eip = s.reg .ip ∧ t.reg .xp = s.reg .exp := by
  cases h with
  | wrote hw _ =>
    rw [hw.flags_eq, hs] at ht
    cases ht
  | @trapped _ _ u c _ hip hexp _ _ =>
    obtain ⟨heip, hxp, -⟩ := u.raiseFault_frame c
    exact ⟨heip.trans hip, hxp.trans hexp⟩
  | halted | compared | requested => cases hs.symm.trans ht
  | resumed => cases ht

theorem Executed.memOk {i : Instr} {s t : State} (h : Executed i s t) (hm : s.memOk) : t.memOk := by
  cases h with
  | wrote hw _ => exact hw.memOk hm
  | @trapped _ _ u c hw _ _ _ _ =>
    obtain ⟨-, -, -, hmem, ⟨-, -, hparams⟩, -⟩ := u.raiseFault_frame c
    rw [State.memOk, hmem, hparams]
    exact hw.memOk hm
  | halted | compared | requested | resumed => exact hm

theorem Executed.wordsOk {i : Instr} {s t : State} (h : Executed i s t) (hs : s.HoldsWords i) : t.wordsOk := by
  have ⟨_, hwords, _⟩ := hs
  cases h with
  | wrote hw _ => exact hw.wordsOk hs
  | trapped c hw _ _ _ _ => exact State.wordsOk_raiseFault c (hw.wordsOk hs)
  | halted | compared => exact hwords
  | resumed => exact State.wordsOk_setFlags _ (State.wordsOk_setReg .xp hwords (hwords.1 .eip))
  | requested v =>
    obtain ⟨hregs, hcells, -, hout⟩ := hwords
    exact ⟨hregs, hcells, hs.isWord_operand (v := v) (by simp [Instr.operands]), hout⟩

/-! ### The cases of a step -/

/-- No two instructions are decoded from the same Words. -/
theorem State.running_unique {s : State} {i j : Instr} (hi : s.running i) (hj : s.running j) : i = j := by
  obtain ⟨_, hi⟩ := hi
  obtain ⟨_, hj⟩ := hj
  rw [hi] at hj
  cases hj
  rfl

/-- A step executes the instruction it fetched, or raises the fault of the fetches; then comes phase 4 (R130). -/
theorem step_effect {s t : State} (h : step s = .next t) :
    (∃ i u, s.running i ∧ Executed i (s.snapshot.advance i.size) u ∧ t = u.interruptPhase) ∨
    (∃ c, (∀ i, ¬ s.running i) ∧ t = (s.snapshot.raiseFault c).interruptPhase) := by
  obtain ⟨-, ⟨i, rest, u, hd, hu, ht⟩ | ⟨e, he, ht⟩⟩ := step_cases h
  · exact .inl ⟨i, u, (s.running_iff i).2 ⟨rest, hd⟩, exec_cases hu, ht⟩
  · refine .inr ⟨causeOf e, fun i hi => ?_, ht⟩
    obtain ⟨rest, hd⟩ := (s.running_iff i).1 hi
    cases he.symm.trans hd

theorem step_halt_clear {s t : State} (h : step s = .next t) : s.flags.halt = false :=
  (step_cases h).1

/-- From a state with no request pending, phase 4 has nothing to do unless the instruction is `int`. -/
theorem Executed.interruptPhase {i : Instr} {s u : State} (h : Executed i s u) (hs : s.flags.interrupt = false) :
    (∃ v, i = .int v ∧ u = (s.setIntid v).setInterrupt true) ∨ u.intid = s.intid ∧ u.interruptPhase = u := by
  rcases h.request with hint | ⟨hintid, hint⟩
  · exact .inl hint
  · exact .inr ⟨hintid, State.interruptPhase_idle (hint.trans hs)⟩

/-- A fault of the fetches requests nothing. -/
theorem State.raiseFault_interruptPhase {s : State} (c : TrapCause) (hs : s.flags.interrupt = false) :
    (s.raiseFault c).interruptPhase = s.raiseFault c := by
  obtain ⟨-, -, -, -, -, -, -, hint, -⟩ := s.raiseFault_frame c
  exact State.interruptPhase_idle (hint.trans hs)

/-! ### Flags and output -/

theorem State.interrupt_interruptPhase (s : State) : s.interruptPhase.flags.interrupt = false := by
  obtain ⟨-, -, -, -, -, hint, -⟩ := s.interruptPhase_frame
  exact hint

theorem State.halt_interruptPhase (s : State) : s.interruptPhase.flags.halt = s.flags.halt := by
  obtain ⟨-, -, -, -, -, -, hhalt, -⟩ := s.interruptPhase_frame
  exact hhalt

theorem State.invalidAddress_interruptPhase {s : State} (h : s.flags.invalidAddress = true) :
    s.interruptPhase.flags.invalidAddress = true := by
  obtain ⟨-, -, -, -, -, -, -, hsticky, -⟩ := s.interruptPhase_frame
  exact hsticky h

/-- Settles O22: phase 4 leaves Interrupt clear whatever it finds. -/
theorem noRequestOutlivesAStep : Obligations.NoRequestOutlivesAStep := by
  intro s t h
  obtain ⟨i, u, -, -, rfl⟩ | ⟨c, -, rfl⟩ := step_effect h
  · exact u.interrupt_interruptPhase
  · exact State.interrupt_interruptPhase _

theorem State.interruptPhase_out (s : State) : ∃ more, s.interruptPhase.out = s.out ++ more := by
  obtain ⟨-, -, -, -, hout, -⟩ := s.interruptPhase_frame
  exact hout

/-- No step shortens the output (R45). -/
theorem step_out {s t : State} (h : step s = .next t) : ∃ more, t.out = s.out ++ more := by
  obtain ⟨i, u, -, he, rfl⟩ | ⟨c, -, rfl⟩ := step_effect h
  · obtain ⟨more, hmore⟩ := u.interruptPhase_out
    exact ⟨more, by rw [hmore, he.out_params.1]; rfl⟩
  · obtain ⟨more, hmore⟩ := (s.snapshot.raiseFault c).interruptPhase_out
    obtain ⟨-, -, -, -, ⟨-, hout, -⟩, -⟩ := s.snapshot.raiseFault_frame c
    exact ⟨more, by rw [hmore, hout]; rfl⟩

/-- Settles O24: only phase 4 emits, and it runs a service only on a request, which only `int` makes. -/
theorem onlyIntAddsOutput : Obligations.OnlyIntAddsOutput := by
  intro s t h
  refine ⟨step_out h, fun hs hint => ?_⟩
  obtain ⟨i, u, hi, he, rfl⟩ | ⟨c, -, rfl⟩ := step_effect h
  · rcases he.interruptPhase hs with ⟨v, rfl, -⟩ | ⟨hintid, hidle⟩
    · exact absurd hi (hint v)
    · rw [hidle]
      exact ⟨he.out_params.1, hintid⟩
  · obtain ⟨-, -, -, -, ⟨hintid, hout, -⟩, -⟩ := s.snapshot.raiseFault_frame c
    rw [State.raiseFault_interruptPhase (s := s.snapshot) c hs]
    exact ⟨hout, hintid⟩

/-- With Halt clear a step has a next state: faults enter the trap, and every meaning answers one (R134). -/
theorem exists_step_of_halt_clear {s : State} (hs : s.flags.halt = false) : ∃ t, step s = .next t := by
  cases hd : decode (State.codeWords s.params.memSize s.snapshot) with
  | error e => exact ⟨_, step_of_decode_error hs hd⟩
  | ok p =>
    obtain ⟨i, rest⟩ := p
    obtain ⟨u, hu⟩ := exec_next i (s.snapshot.advance i.size)
    exact ⟨_, by rw [step_of_decode_ok hs hd, hu]; rfl⟩

/-- Settles O12: `step` is a function, and no step shortens the output. -/
theorem runningStepIsTotal : Obligations.RunningStepIsTotal := by
  intro s hs
  obtain ⟨t, ht⟩ := exists_step_of_halt_clear hs
  refine ⟨t, ⟨ht, step_out ht⟩, ?_⟩
  rintro t' ⟨ht', -⟩
  cases ht'.symm.trans ht
  rfl

/-- Settles O25: neither an instruction, nor a fault, nor phase 4 clears the flag. -/
theorem invalidAddressIsSticky : Obligations.InvalidAddressIsSticky := by
  intro s t h hs
  obtain ⟨i, u, -, he, rfl⟩ | ⟨c, -, rfl⟩ := step_effect h
  · exact State.invalidAddress_interruptPhase (he.invalidAddress hs)
  · obtain ⟨-, -, -, -, -, -, -, -, hsticky, -⟩ := s.snapshot.raiseFault_frame c
    exact State.invalidAddress_interruptPhase (hsticky hs)

/-- Settles O26: neither an instruction but `test`, nor a fault, nor phase 4 writes the four flags. -/
theorem onlyTestWritesTheCompareFlags : Obligations.OnlyTestWritesTheCompareFlags := by
  intro s t h htest
  obtain ⟨i, u, hi, he, rfl⟩ | ⟨c, -, rfl⟩ := step_effect h
  · rcases he.compareFlags with ⟨ra, rb, rfl, -⟩ | hsame
    · exact absurd hi (htest ra rb)
    · exact hsame.trans u.interruptPhase_compareFlags
  · exact (s.snapshot.raiseFault_compareFlags c).trans (State.interruptPhase_compareFlags _)

/-- Settles O27: a step starts with Halt clear, and only the meaning of `halt` sets it. -/
theorem onlyHaltSetsHalt : Obligations.OnlyHaltSetsHalt := by
  intro s t h
  have hs := step_halt_clear h
  obtain ⟨i, u, hi, he, rfl⟩ | ⟨c, hnone, rfl⟩ := step_effect h
  · rw [State.halt_interruptPhase, he.halt_iff hs]
    refine ⟨?_, State.running_unique hi⟩
    rintro rfl
    exact hi
  · obtain ⟨-, -, -, -, -, -, hhalt, -⟩ := s.snapshot.raiseFault_frame c
    rw [State.halt_interruptPhase, hhalt, State.flags_snapshot, hs]
    exact iff_of_false nofun (hnone _)

/-! ### Memory and registers -/

/-- The fetches leave SP alone, so the cell an instruction may store to is fixed before them. -/
theorem mayStore_snapshot_advance (s : State) (n : Nat) (i : Instr) :
    mayStore (s.snapshot.advance n) i = mayStore s i := by
  cases i with
  | push rs =>
    simp only [mayStore]
    rw [State.reg_advance_ne _ _ (by decide), State.reg_snapshot_ne _ (by decide)]
  | _ => rfl

theorem State.cell_interruptPhase (s : State) (k : Nat) : s.interruptPhase.cell k = s.cell k := by
  obtain ⟨-, hmem, -⟩ := s.interruptPhase_frame
  rw [State.cell, hmem]
  rfl

/-- Settles O28: the writes of an instruction go to the cell that `mayStore` gives; faults and phase 4 write no cell. -/
theorem onlyStoreAndPushWriteMemory : Obligations.OnlyStoreAndPushWriteMemory := by
  rintro s t ⟨-, ⟨hwf, -⟩, -⟩ h
  obtain ⟨i, u, hi, he, rfl⟩ | ⟨c, hnone, rfl⟩ := step_effect h
  · refine ⟨fun j hj k hk => ?_, fun hnone => absurd hi (hnone i)⟩
    obtain rfl := State.running_unique hi hj
    exact (u.cell_interruptPhase k).trans (he.cells hwf (by rwa [mayStore_snapshot_advance]))
  · refine ⟨fun i hi => absurd hi (hnone i), fun _ k => ?_⟩
    obtain ⟨-, -, -, hmem, -⟩ := s.snapshot.raiseFault_frame c
    rw [State.cell_interruptPhase, State.cell, hmem]
    rfl

/-- With its phase 4 an instruction writes no more than the rule gives it: only `int` can be followed by a trap of a service, and
it is given EIP and XP. -/
theorem Executed.sameRegsExcept_interruptPhase {i : Instr} {s u : State} (h : Executed i s u)
    (hs : s.flags.interrupt = false) : SameRegsExcept (mayWrite i) s u.interruptPhase := by
  rcases h.interruptPhase hs with ⟨v, rfl, -⟩ | ⟨-, hidle⟩
  · intro r hr
    obtain ⟨hregs, -⟩ := u.interruptPhase_frame
    exact (hregs r hr).trans (h.sameRegsExcept r hr)
  · rw [hidle]
    exact h.sameRegsExcept

/-- Settles O29: the snapshot writes IP, the fetches XP, and the instruction with its phase 4 what `mayWrite` gives; a fault of
the fetches writes EIP and XP. -/
theorem registerWritesAreThoseOfTheRule : Obligations.RegisterWritesAreThoseOfTheRule := by
  rintro s t ⟨-, -, -, hint, -⟩ h
  obtain ⟨i, u, hi, he, rfl⟩ | ⟨c, hnone, rfl⟩ := step_effect h
  · refine ⟨fun j hj r hr => ?_, fun hnone => absurd hi (hnone i)⟩
    obtain rfl := State.running_unique hi hj
    simp only [List.mem_cons, not_or] at hr
    obtain ⟨hip, hxp, hwrite⟩ := hr
    rw [he.sameRegsExcept_interruptPhase hint r hwrite, State.reg_advance_ne _ _ hxp, State.reg_snapshot_ne _ hip]
  · refine ⟨fun i hi => absurd hi (hnone i), fun _ r hr => ?_⟩
    simp only [List.mem_cons, List.not_mem_nil, or_false, not_or] at hr
    obtain ⟨hip, hxp, heip⟩ := hr
    obtain ⟨-, -, hregs, -⟩ := s.snapshot.raiseFault_frame c
    rw [State.raiseFault_interruptPhase (s := s.snapshot) c hint, hregs r (by simp [hxp, heip]),
      State.reg_snapshot_ne _ hip]

/-- A trap of the instruction, or of the service it requested, finds IP and EXP as the instruction did. -/
theorem Executed.exception_interruptPhase {i : Instr} {s u : State} (h : Executed i s u)
    (hint : s.flags.interrupt = false) (hs : s.flags.exception = false)
    (hu : u.interruptPhase.flags.exception = true) :
    u.interruptPhase.reg .eip = s.reg .ip ∧ u.interruptPhase.reg .xp = s.reg .exp := by
  rcases h.interruptPhase hint with ⟨v, -, rfl⟩ | ⟨-, hidle⟩
  · rcases State.interruptPhase_cases ((s.setIntid v).setInterrupt true) with ⟨hi, -⟩ | ⟨-, ws, hw | hw⟩
    · cases hi
    · rw [hw, State.emitAll_eq] at hu
      cases hs.symm.trans hu
    · rw [hw, State.emitAll_eq]
      exact ⟨rfl, rfl⟩
  · rw [hidle] at hu ⊢
    exact h.exception hs hu

/-- Settles O30: whichever part of the step traps, it finds IP at the opcode Word and EXP as it was. -/
theorem trapsArePreciseInPosition : Obligations.TrapsArePreciseInPosition := by
  rintro s t ⟨-, -, -, hint, -⟩ h hs ht
  obtain ⟨i, u, -, he, rfl⟩ | ⟨c, -, rfl⟩ := step_effect h
  · obtain ⟨heip, hxp⟩ := he.exception_interruptPhase hint hs ht
    obtain ⟨-, hip, hregs, -⟩ := s.moved_snapshot_advance i.size
    exact ⟨heip.trans hip, hxp.trans (hregs .exp (by decide))⟩
  · obtain ⟨heip, hxp, -⟩ := s.snapshot.raiseFault_frame c
    rw [State.raiseFault_interruptPhase (s := s.snapshot) c hint]
    exact ⟨heip.trans s.reg_snapshot_ip, hxp.trans (s.reg_snapshot_ne (by decide))⟩

end Sys2Proof.Machine
end

section
/-! The invariant of the machine: it holds after reset, and every step and every operation of the host keeps it
(spec/10_state.md, spec/70_reset_and_hazards.md). -/

namespace Sys2Proof.Machine

/-! ### Reset -/

theorem State.reg_resetOf (p : Params) (r : Reg) : (State.resetOf p).reg r = 0 := by
  cases r <;> rfl

/-- Settles O19: reset puts every field but the parameters to its reset value. -/
theorem resetClearsEverything : Obligations.ResetClearsEverything :=
  fun s => ⟨State.reg_resetOf s.params, fun _ => rfl, rfl, rfl, rfl, rfl, rfl, rfl, rfl, rfl, rfl, rfl, rfl⟩

/-- At every legal width the reset state meets the invariant: 0 is a Word, and nothing else is stored (R50). -/
theorem State.inv_resetOf {p : Params} (hp : p.legal) : (State.resetOf p).Inv := by
  have h0 : isWord p 0 := isWord_of_small hp (by decide) (by decide)
  have hmem : (State.resetOf p).memOk := ⟨State.wf_resetOf p, nofun⟩
  have hregs : ∀ r, isWord p ((State.resetOf p).reg r) := fun r => by rwa [State.reg_resetOf]
  exact ⟨hp, hmem, ⟨hregs, nofun, h0, nofun⟩, rfl, by simp [State.resetOf]⟩

/-- Settles O20: the reference values are legal ones. -/
theorem resetMeetsTheInvariant : Obligations.ResetMeetsTheInvariant :=
  ⟨State.inv_resetOf (p := Params.reference) (by decide), fun _ hp => State.inv_resetOf hp⟩

/-! ### Steps -/

theorem SameCompareFlags.compareOk {s t : State} (h : SameCompareFlags s t) (hs : s.flags.compareOk) :
    t.flags.compareOk := by
  obtain ⟨-, he, hg, hl⟩ := h
  rwa [Flags.compareOk, he, hg, hl]

/-- Phase 4 ends in a state of the invariant, whether or not it finds a request (R221). -/
theorem State.inv_interruptPhase {s : State} (hp : s.params.legal) (hm : s.memOk) (hw : s.wordsOk)
    (hc : s.flags.compareOk) : s.interruptPhase.Inv := by
  obtain ⟨-, hmem, -, hparams, -, hint, -⟩ := s.interruptPhase_frame
  refine ⟨by rwa [hparams], ?_, State.wordsOk_interruptPhase hp hw, hint, s.interruptPhase_compareFlags.compareOk hc⟩
  rwa [State.memOk, hmem, hparams]

theorem State.params_interruptPhase (s : State) : s.interruptPhase.params = s.params := by
  obtain ⟨-, -, -, hparams, -⟩ := s.interruptPhase_frame
  exact hparams

/-- An instruction fetched from a state of the invariant has Words for operands, and finds Words everywhere. -/
theorem State.Inv.holdsWords {s : State} {i : Instr} (h : s.Inv) (hi : s.running i) :
    (s.snapshot.advance i.size).HoldsWords i := by
  obtain ⟨hp, -, hw, -⟩ := h
  obtain ⟨rest, hd⟩ := (s.running_iff i).1 hi
  have hsnap : s.snapshot.wordsOk := State.wordsOk_setReg .ip hw (hw.1 .xp)
  have hcode := State.isWord_codeWords (s := s.snapshot) s.params.memSize hp hsnap
  exact ⟨hp, State.wordsOk_snapshot_advance i.size hw, wellFormed_of_decode_ok hcode hd⟩

/-- Settles O21: the writes of an instruction keep each part of the invariant but the pending request, a fault writes only Words
that were there, and phase 4 clears the request. -/
theorem stepKeepsTheInvariant : Obligations.StepKeepsTheInvariant := by
  intro s t hs h
  have ⟨hp, hm, hw, _, hc⟩ := hs
  obtain ⟨i, u, hi, he, rfl⟩ | ⟨c, -, rfl⟩ := step_effect h
  · obtain ⟨-, hparams⟩ := he.out_params
    have hcu : u.flags.compareOk := by
      rcases he.compareFlags with ⟨-, -, -, hok⟩ | hsame
      · exact hok
      · exact hsame.compareOk hc
    have hpu : u.params.legal := by rw [hparams]; exact hp
    refine ⟨State.inv_interruptPhase hpu (he.memOk hm) (he.wordsOk (hs.holdsWords hi)) hcu, ?_⟩
    rw [State.params_interruptPhase, hparams]
    rfl
  · obtain ⟨-, -, -, hmem, ⟨-, -, hparams⟩, -⟩ := s.snapshot.raiseFault_frame c
    have hwf : (s.snapshot.raiseFault c).wordsOk := State.wordsOk_raiseFault c (State.wordsOk_setReg .ip hw (hw.1 .xp))
    have hmf : (s.snapshot.raiseFault c).memOk := by rw [State.memOk, hmem, hparams]; exact hm
    have hpf : (s.snapshot.raiseFault c).params.legal := by rw [hparams]; exact hp
    refine ⟨State.inv_interruptPhase hpf hmf hwf ((s.snapshot.raiseFault_compareFlags c).compareOk hc), ?_⟩
    rw [State.params_interruptPhase, hparams]
    rfl

/-! ### The operations of the host -/

theorem State.Inv.setReg {s : State} (h : s.Inv) (r : Reg) {v : Int} (hv : isWord s.params v) : (s.setReg r v).Inv := by
  obtain ⟨hp, hm, hw, hint, hc⟩ := h
  exact ⟨hp, hm, State.wordsOk_setReg r hw hv, hint, hc⟩

theorem State.Inv.setCell {s : State} (h : s.Inv) {k : Nat} (hk : k < s.params.memSize) {v : Int}
    (hv : isWord s.params v) : (s.setCell k v).Inv := by
  obtain ⟨hp, hm, hw, hint, hc⟩ := h
  have hvalid : s.valid (k : Int) := ⟨by omega, by omega⟩
  exact ⟨hp, State.memOk_setCell v hm hvalid, State.wordsOk_setCell k hw hv, hint, hc⟩

/-- `run()` opens with the Words 0 and `N - 1` (R252). -/
theorem State.Inv.runStart {s : State} (h : s.Inv) : s.runStart.Inv := by
  have hhalt : (s.setHalt false).Inv := h
  have h0 : isWord s.params 0 := isWord_of_small h.1 (by decide) (by decide)
  exact (((hhalt.setReg .xp h0).setReg .ip h0).setReg .sp (isWord_wrap _ _)).setReg .rp h0

/-- The Words of a block, placed one by one, all go to cells of the array. -/
theorem State.Inv.placeWords {ws : List Int} {k : Nat} {s : State} (h : s.Inv) (hw : ∀ w ∈ ws, isWord s.params w) :
    (State.placeWords ws k s).Inv := by
  induction ws generalizing k s with
  | nil => exact h
  | cons w ws ih =>
    obtain ⟨hw0, hws⟩ := List.forall_mem_cons.1 hw
    rw [State.placeWords]
    split
    · next hk => exact ih (h.setCell hk hw0) hws
    · exact ih h hws

/-- What a host load can answer: the block placed, where it fits. -/
theorem State.hostLoad_next {s t : State} {ws : List Int} {a : Int} (h : s.hostLoad ws a = .next t) :
    t = State.placeWords ws a.toNat s := by
  rw [State.hostLoad] at h
  split at h
  · cases h; rfl
  · cases h

/-- Settles O23: reset from its values, the opening of a run register by register, a load Word by Word. -/
theorem hostOperationsKeepTheInvariant : Obligations.HostOperationsKeepTheInvariant := by
  intro s h
  refine ⟨State.inv_resetOf h.1, h.runStart, fun ws a t hw ht => ?_⟩
  rw [State.hostLoad_next ht]
  exact h.placeWords hw

/-! ### What a host load leaves in memory -/

theorem State.placeWords_frame (ws : List Int) (k : Nat) (s : State) :
    (State.placeWords ws k s).regs = s.regs ∧ (State.placeWords ws k s).flags = s.flags ∧
    SameRest s (State.placeWords ws k s) := by
  induction ws generalizing k s with
  | nil => exact ⟨rfl, rfl, rfl, rfl, rfl⟩
  | cons w ws ih =>
    rw [State.placeWords]
    split
    · exact ih (k + 1) (s.setCell k w)
    · exact ih (k + 1) s

theorem State.placeWords_cons {s : State} {k : Nat} (w : Int) (ws : List Int) (hk : k < s.params.memSize) :
    State.placeWords (w :: ws) k s = State.placeWords ws (k + 1) (s.setCell k w) := by
  rw [State.placeWords, if_pos hk]

/-- The cells after a block that fits is placed: those of the block hold its Words, the others what they held. -/
theorem State.cell_placeWords {ws : List Int} {k : Nat} {s : State} (hwf : s.mem.wf)
    (hfit : k + ws.length ≤ s.params.memSize) (j : Nat) :
    (State.placeWords ws k s).cell j = if k ≤ j then ws[j - k]?.getD (s.cell j) else s.cell j := by
  induction ws generalizing k s with
  | nil => simp [State.placeWords]
  | cons w ws ih =>
    rw [List.length_cons] at hfit
    have hrest := ih (k := k + 1) (s := s.setCell k w) (Memory.wf_write _ _ _ hwf)
      (by rw [State.params_setCell]; omega)
    rw [State.placeWords_cons w ws (by omega), hrest, State.cell_setCell s k w j hwf]
    rcases Nat.lt_trichotomy j k with hlt | rfl | hgt
    · simp [show ¬ k + 1 ≤ j by omega, show ¬ k ≤ j by omega, show j ≠ k by omega]
    · simp
    · obtain ⟨d, rfl⟩ : ∃ d, j = k + 1 + d := ⟨j - (k + 1), by omega⟩
      simp [show k + 1 + d - k = d + 1 by omega, show k ≤ k + 1 + d by omega, show k + 1 + d ≠ k by omega]

/-- Settles O58: the block is placed Word by Word at the cells from the address up, or the load is refused. -/
theorem hostLoadWritesTheBlock : Obligations.HostLoadWritesTheBlock := by
  intro s ws a hwf
  refine ⟨fun hfit => ?_, fun hnofit => by rw [State.hostLoad, if_neg hnofit]⟩
  have ⟨h0, hN⟩ := hfit
  obtain ⟨hregs, hflags, hrest⟩ := State.placeWords_frame ws a.toNat s
  have hcell := State.cell_placeWords (ws := ws) (k := a.toNat) hwf (by omega)
  refine ⟨State.placeWords ws a.toNat s, by rw [State.hostLoad, if_pos hfit], ⟨h0, ?_, fun k hk => ?_⟩, fun k hk => ?_,
    fun r _ => ?_, hflags, hrest⟩
  · obtain ⟨-, -, hparams⟩ := hrest
    rw [hparams]
    exact hN
  · rw [hcell, if_pos (by omega), Nat.add_sub_cancel_left, List.getElem?_eq_getElem hk, Option.getD_some]
  · rw [hcell]
    split
    · rw [List.getElem?_eq_none (by omega), Option.getD_none]
    · rfl
  · rw [State.reg, hregs]
    rfl

end Sys2Proof.Machine
end

section
/-! Runs (spec/00_scope.md R11, spec/70_reset_and_hazards.md R254): they end only at Halt, go on step by step, and a fault ends
none (spec/60_exceptions.md R211). -/

namespace Sys2Proof.Machine

/-! ### The loop -/

theorem State.continueFor_of_halt {s : State} (h : s.flags.halt = true) (n : Nat) : State.continueFor n s = some s := by
  cases n <;> rw [State.continueFor, if_pos h]

theorem State.continueFor_zero {s : State} (h : s.flags.halt = false) : State.continueFor 0 s = none := by
  rw [State.continueFor, if_neg (by simp [h])]

theorem State.continueFor_succ {s t : State} (h : step s = .next t) (n : Nat) :
    State.continueFor (n + 1) s = State.continueFor n t := by
  rw [State.continueFor, if_neg (by simp [step_halt_clear h])]
  simp only [h]

/-- A state either has Halt set or has a next state (R134). -/
theorem State.halt_or_step (s : State) : s.flags.halt = true ∨ ∃ t, step s = .next t := by
  cases hs : s.flags.halt with
  | true => exact .inl rfl
  | false => exact .inr (exists_step_of_halt_clear hs)

theorem State.halt_of_continueFor {n : Nat} {s t : State} (h : State.continueFor n s = some t) :
    t.flags.halt = true := by
  induction n generalizing s with
  | zero =>
    rcases s.halt_or_step with hs | ⟨u, hu⟩
    · rw [State.continueFor_of_halt hs] at h
      cases h
      exact hs
    · rw [State.continueFor_zero (step_halt_clear hu)] at h
      cases h
  | succ n ih =>
    rcases s.halt_or_step with hs | ⟨u, hu⟩
    · rw [State.continueFor_of_halt hs] at h
      cases h
      exact hs
    · rw [State.continueFor_succ hu] at h
      exact ih h

/-- Once a run has ended, more steps are not taken. -/
theorem State.continueFor_add {n : Nat} {s t : State} (h : State.continueFor n s = some t) (m : Nat) :
    State.continueFor (n + m) s = some t := by
  induction n generalizing s with
  | zero =>
    rcases s.halt_or_step with hs | ⟨u, hu⟩
    · rw [State.continueFor_of_halt hs] at h ⊢
      exact h
    · rw [State.continueFor_zero (step_halt_clear hu)] at h
      cases h
  | succ n ih =>
    rcases s.halt_or_step with hs | ⟨u, hu⟩
    · rw [State.continueFor_of_halt hs] at h ⊢
      exact h
    · rw [State.continueFor_succ hu] at h
      rw [Nat.succ_add, State.continueFor_succ hu]
      exact ih h

theorem runEnds_unique {s t t' : State} (h : RunEnds s t) (h' : RunEnds s t') : t = t' := by
  obtain ⟨n, h⟩ := h
  obtain ⟨m, h'⟩ := h'
  have hm := State.continueFor_add h m
  rw [Nat.add_comm, State.continueFor_add h' n] at hm
  cases hm
  rfl

theorem runEnds_step_iff {s t u : State} (h : step s = .next t) : RunEnds s u ↔ RunEnds t u := by
  constructor
  · rintro ⟨n, hn⟩
    cases n with
    | zero =>
      rw [State.continueFor_zero (step_halt_clear h)] at hn
      cases hn
    | succ n => exact ⟨n, (State.continueFor_succ h n).symm.trans hn⟩
  · rintro ⟨n, hn⟩
    exact ⟨n + 1, (State.continueFor_succ h n).trans hn⟩

/-- Settles O59: by the equations of the loop. -/
theorem runsEndExactlyAtHalt : Obligations.RunsEndExactlyAtHalt :=
  ⟨fun _ _ ⟨_, h⟩ => State.halt_of_continueFor h, fun _ _ _ => runEnds_unique,
    fun _ h => ⟨0, State.continueFor_of_halt h 0⟩, fun _ _ _ => runEnds_step_iff⟩

/-! ### Loops of faults -/

/-- A run diverges from every state of a set in which each state has a next one. -/
theorem diverges_of_step_closed {P : State → Prop} (hstep : ∀ s, P s → ∃ t, step s = .next t ∧ P t) {s : State}
    (hs : P s) : Diverges s := by
  intro n
  induction n generalizing s with
  | zero =>
    obtain ⟨t, ht, -⟩ := hstep s hs
    exact State.continueFor_zero (step_halt_clear ht)
  | succ n ih =>
    obtain ⟨t, ht, hPt⟩ := hstep s hs
    rw [State.continueFor_succ ht]
    exact ih hPt

/-- XP and the trap target are both out of range, so that the next opcode fetch faults, and so does the one after it. -/
def FetchFaultLoop (s : State) : Prop :=
  s.flags.halt = false ∧ s.Inv ∧ ¬ s.valid (s.reg .exp) ∧ ¬ s.valid (s.reg .xp)

theorem FetchFaultLoop.step {s : State} (h : FetchFaultLoop s) : ∃ t, step s = .next t ∧ FetchFaultLoop t := by
  obtain ⟨hh, hinv, hexp, hxp⟩ := h
  obtain ⟨t, ht, ⟨-, htxp, hflags, hregs, -, -, -, hparams⟩, -, -⟩ := opcodeFetchOutOfBoundsTraps s hh hinv hxp
  obtain ⟨htinv, -⟩ := stepKeepsTheInvariant s t hinv ht
  have hsexp : s.snapshot.reg .exp = s.reg .exp := s.reg_snapshot_ne (by decide)
  have htexp : t.reg .exp = s.reg .exp := (hregs .exp (by decide)).trans hsexp
  have hvalid : ¬ t.valid (s.reg .exp) := by rw [State.valid, hparams]; exact hexp
  refine ⟨t, ht, by rw [hflags]; exact hh, htinv, by rwa [htexp], ?_⟩
  rwa [htxp, hsexp]

/-- XP and the trap target are at the same unknown opcode. -/
def OpcodeFaultLoop (w : Int) (s : State) : Prop :=
  s.atWords [w] ∧ s.reg .exp = s.reg .xp

theorem OpcodeFaultLoop.step {w : Int} (hw : w < 0 ∨ 22 < w) {s : State} (h : OpcodeFaultLoop w s) :
    ∃ t, step s = .next t ∧ OpcodeFaultLoop w t := by
  obtain ⟨hwords, hexp⟩ := h
  obtain ⟨t, ht, ⟨-, htxp, hflags, hregs, hcells, -, -, hparams⟩, -⟩ := unknownOpcodeTraps s w hwords hw
  obtain ⟨hh, hinv, h0, hN, hmem⟩ := hwords
  obtain ⟨htinv, -⟩ := stepKeepsTheInvariant s t hinv ht
  have hsexp : s.snapshot.reg .exp = s.reg .exp := s.reg_snapshot_ne (by decide)
  have htexp : t.reg .exp = s.reg .exp := (hregs .exp (by decide)).trans hsexp
  have htx : t.reg .xp = s.reg .xp := (htxp.trans hsexp).trans hexp
  have hthas : t.hasWords (t.reg .xp) [w] := by
    rw [htx]
    exact ⟨h0, by rw [hparams]; exact hN, fun k hk => (hmem k hk).trans (congrArg some (hcells _).symm)⟩
  exact ⟨t, ht, ⟨by rw [hflags]; exact hh, htinv, hthas⟩, by rw [htexp, htx, hexp]⟩

/-- Settles O60: each trap leads back to a state that traps again in the same way. -/
theorem faultLoopsDiverge : Obligations.FaultLoopsDiverge := by
  refine ⟨fun s hh hinv hexp hxp => ?_, fun s w h hw hexp => ?_⟩
  · exact diverges_of_step_closed (P := FetchFaultLoop) (fun _ => FetchFaultLoop.step) ⟨hh, hinv, hexp, hxp⟩
  · exact diverges_of_step_closed (P := OpcodeFaultLoop w) (fun _ => OpcodeFaultLoop.step hw) ⟨h, hexp⟩

end Sys2Proof.Machine
end

section
/-! The software interrupt (spec/60_exceptions.md R213 to R221): the decimal text of print-integer, and the whole steps of `int`
for each service. -/

namespace Sys2Proof.Machine

/-! ### The decimal text -/

/-- `ds` is the decimal numeral of `m`: its digits, most significant first, with no leading zero but for 0 itself (R217). -/
def IsDecimal (ds : List Nat) (m : Nat) : Prop :=
  ds ≠ [] ∧ (∀ d ∈ ds, d ≤ 9) ∧ ds.foldl (fun n d => 10 * n + d) 0 = m ∧ (ds.head? = some 0 → ds = [0])

theorem isDecimal_digit {m : Nat} (h : m < 10) : IsDecimal [m] m :=
  ⟨by simp, by simp; omega, by simp, by simp⟩

/-- One more digit at the end. -/
theorem IsDecimal.snoc {ds : List Nat} {m d : Nat} (h : IsDecimal ds m) (hm : m ≠ 0) (hd : d ≤ 9) :
    IsDecimal (ds ++ [d]) (10 * m + d) := by
  obtain ⟨hne, hdigits, hvalue, hlead⟩ := h
  refine ⟨by simp, ?_, by simp [List.foldl_append, hvalue], fun h0 => ?_⟩
  · intro e he
    rcases List.mem_append.1 he with he | he
    · exact hdigits e he
    · rwa [List.mem_singleton.1 he]
  · rw [List.head?_append_of_ne_nil _ hne] at h0
    rw [hlead h0] at hvalue
    exact absurd hvalue.symm hm

/-- `k` digits are enough for a value below `10 ^ k`, and none is emitted in vain. -/
theorem decimalDigits_isDecimal {k m : Nat} (hk : 0 < k) (hm : m < 10 ^ k) :
    ∃ ds, IsDecimal ds m ∧ decimalDigits k m = ds.map digitWord := by
  induction k generalizing m with
  | zero => exact absurd hk (Nat.lt_irrefl 0)
  | succ k ih =>
    rw [decimalDigits]
    split
    · next hlt => exact ⟨[m], isDecimal_digit hlt, rfl⟩
    · next hge =>
      have hdiv : m / 10 < 10 ^ k := Nat.div_lt_of_lt_mul (by rwa [Nat.mul_comm, ← Nat.pow_succ])
      have hk0 : 0 < k := by
        rcases Nat.eq_zero_or_pos k with rfl | hpos
        · omega
        · exact hpos
      obtain ⟨ds, hds, htext⟩ := ih hk0 hdiv
      refine ⟨ds ++ [m % 10], ?_, by rw [htext, List.map_append, List.map_singleton]⟩
      have hsnoc := hds.snoc (d := m % 10) (by omega) (by omega)
      rwa [Nat.div_add_mod] at hsnoc

/-- The magnitude of a Word has at most `W` decimal digits. -/
theorem natAbs_lt_of_isWord {p : Params} {v : Int} (hp : p.legal) (hv : isWord p v) : v.natAbs < 10 ^ p.wordBits := by
  have hW : 0 < p.wordBits := by have := hp.1; omega
  rw [isWord_iff] at hv
  calc
    v.natAbs ≤ p.half := by omega
    _ < 2 ^ p.wordBits := Nat.pow_lt_pow_right (by decide) (by omega)
    _ ≤ 10 ^ p.wordBits := Nat.pow_le_pow_left (by decide) _

/-- Settles O55: the sign, and then the decimal numeral of the magnitude. -/
theorem integerTextIsTheDecimalValue : Obligations.IntegerTextIsTheDecimalValue := by
  intro p v hp hv
  have hW : 0 < p.wordBits := by have := hp.1; omega
  obtain ⟨ds, ⟨hne, hdigits, hvalue, hlead⟩, htext⟩ := decimalDigits_isDecimal hW (natAbs_lt_of_isWord hp hv)
  refine ⟨ds, hne, hdigits, hvalue, hlead, ?_⟩
  rw [integerText, htext]
  rfl

/-! ### The step of `int` -/

theorem decode_int (v : Int) (more : List Int) : decode ([1, v] ++ more) = .ok (.int v, more) := rfl

/-- The state in which the service of `int v` starts: the fetches done, the request latched (R193). -/
def State.requested (s : State) (v : Int) : State := ((s.snapshot.advance 2).setIntid v).setInterrupt true

/-- The step of `int v` is its service on R0, and the request cleared (R221). -/
theorem step_int {s : State} {v : Int} (h : s.atWords [1, v]) :
    step s = .next (((s.requested v).serve v (s.reg .r0)).setInterrupt false) := by
  obtain ⟨more, hcode⟩ := h.codeWords_eq
  have hdec : decode (State.codeWords s.params.memSize s.snapshot) = .ok (.int v, more) := by rw [hcode, decode_int]
  exact step_of_decode_ok h.1 hdec

/-- The services but print-string emit a text and are done. -/
theorem State.serve_of_ne_two {v : Int} (s : State) (p : Int) (hv : v ≠ 2) :
    s.serve v p = s.emitAll (if v = 0 then integerText s.params p else if v = 1 then [p] else []) := by
  by_cases h0 : v = 0
  · subst h0; rfl
  · by_cases h1 : v = 1
    · subst h1; rfl
    · simp only [State.serve, serviceOf, h0, h1, hv, if_false]
      rfl

/-- The request set by `int` and cleared by phase 4 leaves the flags as they were. -/
theorem Flags.clear_interrupt {f : Flags} (h : f.interrupt = false) :
    { { f with interrupt := true } with interrupt := false } = f := by
  cases f
  cases h
  rfl

/-- `t` is `s` after an `int v` whose service emitted `text` and completed. -/
def Served (v : Int) (text : List Int) (s t : State) : Prop :=
  t.out = s.out ++ text ∧ t.intid = v ∧ t.reg .xp = wrap s.params (s.reg .xp + 2) ∧ t.reg .ip = s.reg .xp ∧
  SameRegsExcept [.xp, .ip] s t ∧ t.flags = s.flags ∧ SameMemory s t ∧ t.params = s.params

/-- `t` is `s` after an `int v` whose service emitted `text` and then faulted on an address. -/
def ServedThenTrapped (v : Int) (text : List Int) (s t : State) : Prop :=
  t.out = s.out ++ text ∧ t.intid = v ∧ t.reg .xp = s.reg .exp ∧ t.reg .eip = s.reg .xp ∧ t.reg .ip = s.reg .xp ∧
  SameRegsExcept [.xp, .ip, .eip] s t ∧ t.flags = { s.flags with exception := true, invalidAddress := true } ∧
  SameMemory s t ∧ t.params = s.params

/-- What stands between the fetches of `int v` and the end of a service that emits `text`: the latch, the request and the text. -/
theorem State.requested_emitAll_frame (s : State) (v : Int) (text : List Int) :
    (∀ r, ((s.requested v).emitAll text).reg r = (s.snapshot.advance 2).reg r) ∧
    ((s.requested v).emitAll text).out = s.out ++ text ∧ ((s.requested v).emitAll text).intid = v ∧
    ((s.requested v).emitAll text).flags = { s.flags with interrupt := true } ∧
    SameMemory s ((s.requested v).emitAll text) ∧ ((s.requested v).emitAll text).params = s.params := by
  rw [State.emitAll_eq]
  exact ⟨fun _ => rfl, rfl, rfl, rfl, fun _ => rfl, rfl⟩

theorem State.requested_served {s : State} (v : Int) (text : List Int) (hint : s.flags.interrupt = false) :
    Served v text s (((s.requested v).emitAll text).setInterrupt false) := by
  obtain ⟨hxp, hip, hregs, -⟩ := s.moved_snapshot_advance 2
  obtain ⟨hreg, hout, hintid, hflags, hmem, hparams⟩ := s.requested_emitAll_frame v text
  refine ⟨hout, hintid, (hreg .xp).trans hxp, (hreg .ip).trans hip, fun r hr => (hreg r).trans (hregs r hr), ?_, hmem,
    hparams⟩
  rw [State.flags_setInterrupt, hflags]
  exact Flags.clear_interrupt hint

/-- The trap finds IP at the `int` and EXP as it was, since neither the fetches nor the service wrote them. -/
theorem State.requested_servedThenTrapped {s : State} (v : Int) (text : List Int) (hint : s.flags.interrupt = false) :
    ServedThenTrapped v text s ((((s.requested v).emitAll text).raiseFault .invalidAddress).setInterrupt false) := by
  obtain ⟨-, hip, hregs, -⟩ := s.moved_snapshot_advance 2
  obtain ⟨hreg, hout, hintid, hflags, hmem, hparams⟩ := s.requested_emitAll_frame v text
  obtain ⟨heip, hxp, htflags, htregs, htmem, htintid, htout, htparams⟩ :=
    ((s.requested v).emitAll text).raiseFault_invalidAddress
  rw [hreg] at heip hxp
  refine ⟨htout.trans hout, htintid.trans hintid, hxp.trans (hregs .exp (by decide)), heip.trans hip, ?_, ?_, ?_,
    fun k => (htmem k).trans (hmem k), htparams.trans hparams⟩
  · rw [State.reg_setInterrupt, htregs .ip (by decide), hreg]
    exact hip
  · intro r hr
    simp only [List.mem_cons, List.not_mem_nil, or_false, not_or] at hr
    obtain ⟨hrxp, hrip, hreip⟩ := hr
    rw [State.reg_setInterrupt, htregs r (by simp [hreip, hrxp]), hreg]
    exact hregs r (by simp [hrxp, hrip])
  · rw [State.flags_setInterrupt, htflags, hflags]
    exact congrArg (fun f : Flags => { f with exception := true, invalidAddress := true }) (Flags.clear_interrupt hint)

/-- Settles O54: the service emits its text, if it is one at all, and completes. -/
theorem stepOfIntWithoutString : Obligations.StepOfIntWithoutString := by
  intro s v h hv
  have hstep := step_int h
  rw [State.serve_of_ne_two _ _ hv] at hstep
  exact ⟨_, hstep, State.requested_served v _ h.interrupt_clear⟩

/-! ### print-string -/

/-- The step of `int 2` is print-string from the address in R0, with reads enough for the whole memory (R219). -/
theorem step_int_printString {s : State} (h : s.atWords [1, 2]) :
    step s =
      .next ((State.printString (s.params.memSize + 1) (s.reg .r0) (s.requested 2)).setInterrupt false) :=
  step_int h

/-- Settles O56: print-string emits a terminated string and completes, emits one that reaches the end of memory and faults, and
faults at once on an address out of range. -/
theorem stepOfPrintString : Obligations.StepOfPrintString := by
  refine ⟨?terminated, ?unterminated, ?outOfRange⟩
  case terminated =>
    intro s text h hc hws
    have ⟨h0, hN, _⟩ := hws
    have hlen : text.length < s.params.memSize + 1 := by
      rw [List.length_append, List.length_singleton] at hN
      omega
    have hprint := State.printString_terminated text (s.reg .r0) (s.requested 2) _ h.2.1.1 hc hws hlen
    have hstep := step_int_printString h
    rw [hprint] at hstep
    exact ⟨_, hstep, State.requested_served 2 text h.interrupt_clear⟩
  case unterminated =>
    intro s text h hc hws hend
    have hlen : text.length < s.params.memSize + 1 := by have := hws.1; omega
    have hprint := State.printString_unterminated text (s.reg .r0) (s.requested 2) _ h.2.1.1 hc hws hend hlen
    have hstep := step_int_printString h
    rw [hprint] at hstep
    exact ⟨_, hstep, State.requested_servedThenTrapped 2 text h.interrupt_clear⟩
  case outOfRange =>
    intro s h hv
    have hread : (s.requested 2).memRead (s.reg .r0) = .error .invalidAddress := State.memRead_invalid hv
    have hstep := step_int_printString h
    rw [State.printString, hread] at hstep
    obtain ⟨hout, hframe⟩ := State.requested_servedThenTrapped (s := s) 2 [] h.interrupt_clear
    exact ⟨_, hstep, hout.trans (List.append_nil _), hframe⟩

end Sys2Proof.Machine
end

section
/-! The flags that no program can observe (spec/10_state.md R34). Clearing them in a state gives its visible part; every operation
of the step has the same visible result on a state and on its visible part, so two states with one visible part step alike. -/

namespace Sys2Proof.Machine

/-! ### The visible part of a state -/

/-- `s` with Exception, Greater, Less and InvalidAddress cleared. -/
def State.visible (s : State) : State :=
  s.setFlags { s.flags with exception := false, greater := false, less := false, invalidAddress := false }

theorem sameButHiddenFlags_iff {s t : State} : SameButHiddenFlags s t ↔ t.visible = s.visible := by
  simp only [SameButHiddenFlags, State.visible, State.setFlags, State.mk.injEq, Flags.mk.injEq, true_and, and_true]
  tauto

theorem State.codeWords_visible (n : Nat) (s : State) : State.codeWords n s.visible = State.codeWords n s := by
  induction n generalizing s with
  | zero => rfl
  | succ n ih =>
    by_cases hv : s.valid (s.reg .xp)
    · rw [State.codeWords_valid hv, State.codeWords_valid (s := s.visible) hv]
      exact congrArg _ (ih (s.advance 1))
    · rw [State.codeWords_invalid hv, State.codeWords_invalid (s := s.visible) hv]

/-! ### Operations with one visible result -/

theorem State.raiseFault_visible (s : State) (c : TrapCause) :
    (s.visible.raiseFault c).visible = (s.raiseFault c).visible := by
  cases c <;> rfl

theorem State.jumpIf_visible (s : State) (taken : Bool) (a : Int) :
    (s.visible.jumpIf taken a).visible = (s.jumpIf taken a).visible := by
  cases taken <;> rfl

/-- No meaning reads a hidden flag. -/
theorem exec_visible {i : Instr} {s t : State} (h : exec i s = .next t) :
    ∃ t', exec i s.visible = .next t' ∧ t'.visible = t.visible := by
  cases i with
  | load rd a =>
    by_cases hv : s.valid a
    · rw [exec_load_valid rd hv] at h
      cases h
      exact ⟨_, exec_load_valid (s := s.visible) rd hv, rfl⟩
    · rw [exec_load_invalid rd hv] at h
      cases h
      exact ⟨_, exec_load_invalid (s := s.visible) rd hv, s.raiseFault_visible _⟩
  | store rs a =>
    by_cases hv : s.valid a
    · rw [exec_store_valid rs hv] at h
      cases h
      exact ⟨_, exec_store_valid (s := s.visible) rs hv, rfl⟩
    · rw [exec_store_invalid rs hv] at h
      cases h
      exact ⟨_, exec_store_invalid (s := s.visible) rs hv, s.raiseFault_visible _⟩
  | push rs =>
    by_cases hv : s.valid (s.reg .sp)
    · rw [exec_push_valid rs hv] at h
      cases h
      exact ⟨_, exec_push_valid (s := s.visible) rs hv, rfl⟩
    · rw [exec_push_invalid rs hv] at h
      cases h
      exact ⟨_, exec_push_invalid (s := s.visible) rs hv, s.raiseFault_visible _⟩
  | pop rd =>
    by_cases hv : s.valid (wrap s.params (s.reg .sp + 1))
    · rw [exec_pop_valid rd hv] at h
      cases h
      exact ⟨_, exec_pop_valid (s := s.visible) rd hv, rfl⟩
    · rw [exec_pop_invalid rd hv] at h
      cases h
      exact ⟨_, exec_pop_invalid (s := s.visible) rd hv, s.raiseSp.raiseFault_visible _⟩
  | jz | jnz | je | jne => cases h; exact ⟨_, rfl, s.jumpIf_visible _ _⟩
  | _ => cases h; exact ⟨_, rfl, rfl⟩

theorem State.emitAll_visible (s : State) (ws : List Int) : (s.visible.emitAll ws).visible = (s.emitAll ws).visible := by
  rw [State.emitAll_eq, State.emitAll_eq]
  rfl

theorem State.printString_succ_valid {s : State} {a : Int} (h : s.valid a) (n : Nat) :
    State.printString (n + 1) a s =
      if s.cell a.toNat = 0 then s else State.printString n (wrap s.params (a + 1)) (s.emit (s.cell a.toNat)) := by
  rw [State.printString, State.memRead_valid h]

theorem State.printString_succ_invalid {s : State} {a : Int} (h : ¬ s.valid a) (n : Nat) :
    State.printString (n + 1) a s = s.raiseFault .invalidAddress := by
  rw [State.printString, State.memRead_invalid h]

theorem State.printString_visible (n : Nat) (a : Int) (s : State) :
    (State.printString n a s.visible).visible = (State.printString n a s).visible := by
  induction n generalizing a s with
  | zero => exact s.raiseFault_visible _
  | succ n ih =>
    by_cases hv : s.valid a
    · have hcell : s.visible.cell a.toNat = s.cell a.toNat := rfl
      rw [State.printString_succ_valid hv, State.printString_succ_valid (s := s.visible) hv, hcell]
      split
      · rfl
      · exact ih (wrap s.params (a + 1)) (s.emit (s.cell a.toNat))
    · rw [State.printString_succ_invalid hv, State.printString_succ_invalid (s := s.visible) hv]
      exact s.raiseFault_visible _

theorem State.serve_visible (s : State) (id p : Int) : (s.visible.serve id p).visible = (s.serve id p).visible := by
  rw [State.serve, State.serve]
  cases serviceOf id with
  | none => rfl
  | some service =>
    cases service with
    | printInteger => exact s.emitAll_visible _
    | printCharacter => rfl
    | printString => exact State.printString_visible _ _ s

theorem State.interruptPhase_visible (s : State) : s.visible.interruptPhase.visible = s.interruptPhase.visible := by
  cases hint : s.flags.interrupt with
  | false => rw [State.interruptPhase_idle hint, State.interruptPhase_idle (s := s.visible) hint]; rfl
  | true =>
    rw [State.interruptPhase, State.interruptPhase, if_pos hint, if_pos (show s.visible.flags.interrupt = true from hint)]
    exact congrArg (State.setInterrupt · false) (s.serve_visible _ _)

/-- Phase 4 has one visible result on states with one visible part. -/
theorem State.interruptPhase_congr {s t : State} (h : t.visible = s.visible) :
    t.interruptPhase.visible = s.interruptPhase.visible := by
  rw [← t.interruptPhase_visible, h, s.interruptPhase_visible]

/-! ### The step -/

theorem step_visible {s t : State} (h : step s = .next t) :
    ∃ t', step s.visible = .next t' ∧ t'.visible = t.visible := by
  have hcode : State.codeWords s.params.memSize s.visible.snapshot = State.codeWords s.params.memSize s.snapshot :=
    State.codeWords_visible _ s.snapshot
  obtain ⟨hh, ⟨i, rest, u, hd, hu, rfl⟩ | ⟨e, he, rfl⟩⟩ := step_cases h
  · obtain ⟨u', hu', hvis⟩ := exec_visible hu
    rw [← hcode] at hd
    refine ⟨u'.interruptPhase, ?_, State.interruptPhase_congr hvis⟩
    exact (step_of_decode_ok (s := s.visible) hh hd).trans (congrArg finishStep hu')
  · rw [← hcode] at he
    exact ⟨_, step_of_decode_error (s := s.visible) hh he,
      State.interruptPhase_congr (s.snapshot.raiseFault_visible _)⟩

/-- Settles O31: two states that differ only in the hidden flags have one visible part, and the step of each has the visible
result of the step of that part. -/
theorem hiddenFlagsDoNotInfluenceExecution : Obligations.HiddenFlagsDoNotInfluenceExecution := by
  intro s s' t hsame h
  have hhalt : s'.flags.halt = false := by
    obtain ⟨-, -, -, -, -, hhalt, -⟩ := hsame
    rw [hhalt, step_halt_clear h]
  obtain ⟨t', ht'⟩ := exists_step_of_halt_clear hhalt
  obtain ⟨v, hv, hvt⟩ := step_visible h
  obtain ⟨v', hv', hvt'⟩ := step_visible ht'
  rw [sameButHiddenFlags_iff.1 hsame, hv] at hv'
  cases hv'
  exact ⟨t', ht', sameButHiddenFlags_iff.2 (hvt'.symm.trans hvt)⟩

end Sys2Proof.Machine
end
